-- ==== Sys2Proof/Word.lean ====
section
/-! DEFINITION. Word.lean: the two widths the block computes with (spec/00_scope.md R8, R9, R11). -/

namespace Sys2Proof

/-- A tape cell, a program byte or a port character: 8 bits (R8, R11). -/
abbrev Byte := BitVec 8

/-- The program counter, the data pointer, `PROG_LEN` and a jump-table target: 16 bits (R9, R21, R22, R24, R26). -/
abbrev Word := BitVec 16

end Sys2Proof
end

