-- ==== Sys2Proof/Syntax.lean ====
section
/-! DEFINITION. Syntax.lean: the instructions, one constructor per row of spec/opcode_table.json
(spec/30_encoding.md R61 to R65). No instruction has an operand field (R62). -/

namespace Sys2Proof

/-- The nine operations of the decoder (R65). NOP keeps the byte it was written as, so that no bit of a
comment byte is lost between the program text and its instructions (R69; DESIGN CHOICE, log entry 3). -/
inductive Instr where
  /-- INC, `+`, increment value (R90). -/
  | inc
  /-- DEC, `-`, decrement value (R91). -/
  | dec
  /-- RIGHT, `>`, move pointer right (R102). -/
  | right
  /-- LEFT, `<`, move pointer left (R103). -/
  | left
  /-- JF, `[`, jump forward (R110). -/
  | jf
  /-- JB, `]`, jump backward (R111). -/
  | jb
  /-- WRITE, `.` (R120). -/
  | write
  /-- READ, `,` (R121). -/
  | read
  /-- NOP: any byte that is none of the eight (R64, R82). -/
  | nop (byte : Byte)
  deriving DecidableEq, Repr

end Sys2Proof
end

