-- ==== Sys2Proof/Decode.lean ====
section
/-! DEFINITION. Decode.lean: the opcode map, the decoder and, after it, the encoder
(spec/30_encoding.md R60 to R69, spec/opcode_table.json). -/

namespace Sys2Proof

/-! The opcode bytes of R63 (characters `-` `>` `<` `]` and all codes: D1; PRESUMED, log entry 15). -/

/-- INC, `+`. -/
abbrev incByte : Byte := 0x2B#8
/-- DEC, `-`. -/
abbrev decByte : Byte := 0x2D#8
/-- RIGHT, `>`. -/
abbrev rightByte : Byte := 0x3E#8
/-- LEFT, `<`. -/
abbrev leftByte : Byte := 0x3C#8
/-- JF, `[`. -/
abbrev jfByte : Byte := 0x5B#8
/-- JB, `]`. -/
abbrev jbByte : Byte := 0x5D#8
/-- WRITE, `.`. -/
abbrev writeByte : Byte := 0x2E#8
/-- READ, `,`. -/
abbrev readByte : Byte := 0x2C#8

/-- The eight bytes that are not a NOP (R63). -/
def opcodeBytes : List Byte :=
  [incByte, decByte, rightByte, leftByte, jfByte, jbByte, writeByte, readByte]

/-- The decoder of R65: total, all 8 bits compared exactly, no context (R67, R68). -/
def decode (b : Byte) : Instr :=
  if b = incByte then .inc
  else if b = decByte then .dec
  else if b = rightByte then .right
  else if b = leftByte then .left
  else if b = jfByte then .jf
  else if b = jbByte then .jb
  else if b = writeByte then .write
  else if b = readByte then .read
  else .nop b

/-- Why bytes hold no instruction. Every byte value decodes (R66), so only the lack of a byte is left. -/
inductive DecodeError where
  /-- There is no byte to decode. -/
  | noByte
  deriving DecidableEq, Repr

/-- What the decoder reads from a sequence of bytes: an instruction and the bytes after it, or a rejection. -/
inductive DecodeResult where
  | instr (i : Instr) (rest : List Byte)
  | rejected (why : DecodeError)
  deriving DecidableEq, Repr

/-- Decoding the first instruction of a byte sequence: every instruction is one byte long (R60). -/
def decodeBytes : List Byte → DecodeResult
  | [] => .rejected .noByte
  | b :: rest => .instr (decode b) rest

/-- The instructions of a program text: each byte is one instruction (R60, R69). -/
def decodeProgram : List Byte → List Instr
  | [] => []
  | b :: rest => decode b :: decodeProgram rest

/-- The byte of the host's table word: `w` numbered with bit 0 least significant, the bits from `nbits` up
zero, cut to the one byte an instruction has (R60). -/
def tableByte (nbits w : Nat) : Byte := BitVec.ofNat 8 (w % 2 ^ nbits)

/-- The instruction the decoder reads from a word of spec/opcode_table.json. -/
def decodeTableWord (nbits w : Nat) : Option Instr :=
  match decodeBytes [tableByte nbits w] with
  | .instr i _ => some i
  | .rejected _ => none

/-- The byte of an instruction (R63; a NOP is the byte it was written as, R69). -/
def encodeByte : Instr → Byte
  | .inc => incByte
  | .dec => decByte
  | .right => rightByte
  | .left => leftByte
  | .jf => jfByte
  | .jb => jbByte
  | .write => writeByte
  | .read => readByte
  | .nop b => b

/-- The bytes of an instruction: exactly one (R60). -/
def encode (i : Instr) : List Byte := [encodeByte i]

/-- The program text of an instruction sequence: the sequence of the instructions' bytes (R69). -/
def encodeProgram : List Instr → List Byte
  | [] => []
  | i :: rest => encode i ++ encodeProgram rest

end Sys2Proof
end

