-- ==== Sys2Proof/Config.lean ====
section
/-! DEFINITION. Config.lean: the parameters the spec leaves to the model (spec/00_scope.md R6, R7, R10;
spec/92_eei_decisions.md D4, D19). They are no registers (R31): no step changes them. -/

namespace Sys2Proof

/-- The four behaviours `P_EOF` may have: what READ does at the end of the input stream (R10, R122). -/
inductive EofPolicy where
  | unchanged
  | zero
  | allOnes
  | fault
  deriving DecidableEq, Repr, Inhabited

/-- The parameters of one block: `PROG_CAP` (R6), `TAPE_CAP` (R7) and `P_EOF` (R10). -/
structure Params where
  progCap : Nat
  tapeCap : Nat
  pEof    : EofPolicy
  deriving DecidableEq, Repr

/-- The constraints R6 and R7 put on the capacities: every program position and `PROG_LEN` fit the 16-bit
`pc`, every tape address fits the 16-bit `dp`. -/
def Params.wf (p : Params) : Bool :=
  decide (1 ≤ p.progCap) && decide (p.progCap ≤ 65535)
    && decide (1 ≤ p.tapeCap) && decide (p.tapeCap ≤ 65536)

/-- `PROG_CAP` of this hardware (R6, D19: the literal is unaudited; UNVERIFIED, log entry 1). -/
def Config.progCap : Nat := 32768

/-- `TAPE_CAP` of this hardware (R7, D19: the literal is unaudited; UNVERIFIED, log entry 1). -/
def Config.tapeCap : Nat := 32768

/-- `P_EOF` of this hardware: OPEN in the spec (D4), so a free value without a body; nothing can be proved
of it (DESIGN CHOICE, log entry 2). -/
opaque Config.pEof : EofPolicy

/-- The parameters of this hardware. -/
def Config.params : Params :=
  { progCap := Config.progCap, tapeCap := Config.tapeCap, pEof := Config.pEof }

end Sys2Proof
end

