-- ==== Sys2Proof/Machine/State.lean ====
section
/-! DEFINITION. State.lean: every piece of state the spec gives the block (spec/10_state.md), its ports
(spec/20_memory.md R53), the reasons a step stops, and the state after reset (R32, R150). -/

namespace Sys2Proof.Machine

/-- `STATUS.PHASE` (R30). Its codes stand in Machine/Flags.lean (DESIGN CHOICE, log entry 14). -/
inductive Phase where
  | reset
  | load
  | run
  | halted
  | faulted
  deriving DecidableEq, Repr

/-- `STATUS.CAUSE` (R30, R130). Its codes stand in Machine/Flags.lean. -/
inductive Cause where
  | none
  | loadIoError
  | unbalancedClose
  | unbalancedOpen
  | jtMiss
  | inputEnd
  deriving DecidableEq, Repr

/-- One event of the `load` port: `LByte(b)`, `LEnd`, `LErr` (R53). -/
inductive LoadEvent where
  | byte (b : Byte)
  | ended
  | error
  deriving DecidableEq, Repr

/-- One event of the `in` port: `Byte(b)` or `End` (R53). -/
inductive InEvent where
  | byte (b : Byte)
  | ended
  deriving DecidableEq, Repr

/-- Where the loader is in the load phase: copying, with `n` bytes taken (R152), or scanning, at position
`i` (R155). DESIGN CHOICE, log entry 18. -/
inductive Loader where
  | copy (n : Nat)
  | scan (i : Nat)
  deriving DecidableEq, Repr

/-- The hold of an instruction on a port (R16): none, `In()` waiting for an event (R55), or `Out(v)` waiting
for acceptance (R56). DEDUCED, log entry 12. -/
inductive Hold where
  | free
  | input
  | output (v : Byte)
  deriving DecidableEq, Repr

/-- A byte memory: pairs of address and byte, addresses strictly rising. -/
abbrev Memory := List Host.Cell

/-- The valid entries of the jump-table ROM: pairs of key and target, keys strictly rising; a key that is
not listed has `valid = 0` (R26, D18). DESIGN CHOICE, log entry 19. -/
abbrev JumpTable := List (Nat × Word)

/-- The whole state of the block and of its ports. -/
structure State where
  /-- `PROG_CAP`, `TAPE_CAP`, `P_EOF`: parameters, which no step changes (R6, R7, R10, R31). -/
  params    : Params
  /-- `STATUS.PHASE` (R30). -/
  phase     : Phase
  /-- `STATUS.CAUSE` (R30). -/
  cause     : Cause
  /-- Program counter (R21). -/
  pc        : Word
  /-- Data pointer (R22). -/
  dp        : Word
  /-- `PROG_LEN` (R24). -/
  progLen   : Word
  /-- Program memory (R23); an address not listed holds no specified value (D17; DESIGN
  CHOICE, log entry 10). -/
  prog      : Memory
  /-- Data tape (R25); an address not listed holds 0. -/
  tape      : Memory
  /-- Jump-table ROM (R26). -/
  jt        : JumpTable
  /-- Bracket stack of the loader, top first (R28). -/
  stk       : List Word
  /-- The loader's place in the load phase (R152, R155). -/
  loader    : Loader
  /-- A port hold in progress (R16, R55, R56). -/
  hold      : Hold
  /-- Level of the `rst` input (R53, R150). -/
  rst       : Bool
  /-- Events the host has offered on `load` and the loader has not taken, oldest first (R54). -/
  loadPort  : List LoadEvent
  /-- Bytes the host has offered on `in` and no READ has taken, oldest first (R55). -/
  inPort    : List Byte
  /-- The input stream ends behind `inPort`: from there on the port gives `End` for ever (R53, D21). -/
  inEnded   : Bool
  /-- The host accepts a byte offered on `out` (R56; DESIGN CHOICE, log entry 16). -/
  outReady  : Bool
  /-- Bytes the `out` port has accepted in this run, oldest first (R56, R87). -/
  outStream : List Byte
  deriving DecidableEq, Repr

/-- Why the MODEL stops. The block's own five faults are no stop: they are the state `PHASE = FAULTED`
(R138). Each of these names a state that no run reaches. -/
inductive Fault where
  /-- Raised by the step in the run phase when `pc > PROG_LEN` (R81, D20, U4; log entry 11). Safe: no run reaches it. -/
  | pcBeyondProgram
  /-- Raised by a fetch or by the loader's scan at a position below `PROG_LEN` that holds no loaded byte
  (R23, D17, U2; log entry 10). Safe: the machine stops instead of reading a value the spec leaves unspecified. -/
  | programByteUnspecified
  /-- Raised by a tape access while `dp >= TAPE_CAP`, an address the tape does not have (R25, R41; log entry 4). Safe:
  no run reaches it. -/
  | tapeAddressOutOfRange
  deriving DecidableEq, Repr

/-- Why an instruction has no meaning. -/
inductive Refusal where
  /-- Raised by exec for an instruction not modelled yet: no arm of this model answers it. Safe. -/
  | notModelled (mnemonic : String)
  deriving DecidableEq, Repr

/-- The block right after reset, with `rst` released (R32, R150). Memory lists nothing: the tape is all
zero, program memory unspecified, the jump table all invalid. The ports are the host's: nothing offered
yet, and the output port accepting (DESIGN CHOICE, log entry 6). -/
def State.reset : State :=
  { params := Config.params
    phase := .reset
    cause := .none
    pc := 0#16
    dp := 0#16
    progLen := 0#16
    prog := []
    tape := []
    jt := []
    stk := []
    loader := .copy 0
    hold := .free
    rst := false
    loadPort := []
    inPort := []
    inEnded := false
    outReady := true
    outStream := [] }

end Sys2Proof.Machine
end

