-- ==== Sys2Proof/Machine/Memory.lean ====
section
/-! DEFINITION. Memory.lean: lists of keyed entries in one canonical form, and the tape, the program
memory and the jump table read and written through them (spec/10_state.md R23, R25, R26; spec/20_memory.md
R40 to R43). -/

namespace Sys2Proof.Machine

/-- The value listed at a key. -/
def Sparse.lookup {β : Type} : List (Nat × β) → Nat → Option β
  | [], _ => none
  | (k, v) :: rest, a => if k = a then some v else Sparse.lookup rest a

/-- Lists `v` at key `a`, in its place by rising key, instead of what stood there. -/
def Sparse.put {β : Type} : List (Nat × β) → Nat → β → List (Nat × β)
  | [], a, v => [(a, v)]
  | (k, u) :: rest, a, v =>
    if a < k then (a, v) :: (k, u) :: rest
    else if a = k then (a, v) :: rest
    else (k, u) :: Sparse.put rest a v

/-- Takes the key `a` off the list. -/
def Sparse.erase {β : Type} : List (Nat × β) → Nat → List (Nat × β)
  | [], _ => []
  | (k, u) :: rest, a => if k = a then rest else (k, u) :: Sparse.erase rest a

/-- The keys rise strictly. -/
def Sparse.rising {β : Type} : List (Nat × β) → Bool
  | [] => true
  | (k, _) :: rest => rest.all (fun c => decide (k < c.1)) && Sparse.rising rest

/-- What a tape address that is not listed reads as: 0, "all initialized to zero at startup" (R25, R32;
DEDUCED, log entry 20). -/
def Memory.unlisted : Byte := 0#8

/-- Reads one tape cell. -/
def Memory.read (m : Memory) (a : Nat) : Byte := (Sparse.lookup m a).getD Memory.unlisted

/-- Writes one tape cell, in the canonical form: writing what an unlisted address reads as takes the entry
off the list. -/
def Memory.write (m : Memory) (a : Nat) (v : Byte) : Memory :=
  if v = Memory.unlisted then Sparse.erase m a else Sparse.put m a v

/-- The canonical form of the tape: addresses strictly rising, no entry equal to what an unlisted address
reads as. -/
def Memory.wf (m : Memory) : Bool :=
  Sparse.rising m && m.all (fun c => decide (c.2 ≠ Memory.unlisted))

/-- `Tape[a]` (R25). -/
def State.cell (s : State) (a : Nat) : Byte := Memory.read s.tape a

/-- `Prog[a]` (R23): no value where nothing was loaded (D17). -/
def State.progByte (s : State) (a : Nat) : Option Byte := Sparse.lookup s.prog a

/-- `JT[k]` (R26): `some target` when `valid = 1`, `none` when `valid = 0`. -/
def State.jtTarget (s : State) (k : Nat) : Option Word := Sparse.lookup s.jt k

end Sys2Proof.Machine
end

