-- ==== Sys2Proof/Machine/Ops.lean ====
section
/-! DEFINITION. Ops.lean: the named updates of the state, the memory accesses, raising a fault and the
reset that alone leads out of one (spec/20_memory.md R41 to R43; spec/60_exceptions.md R138, R139;
spec/70_reset_and_hazards.md R150). -/

namespace Sys2Proof.Machine

/-- What one step or one execute part answers. -/
abbrev Result := Host.Outcome State Fault Refusal

/-! One update per piece of state; Laws/State.lean says of each which fields it leaves alone. -/

def State.setStatus (s : State) (p : Phase) (c : Cause) : State := { s with phase := p, cause := c }
def State.setPc (s : State) (v : Word) : State := { s with pc := v }
def State.setDp (s : State) (v : Word) : State := { s with dp := v }
def State.setProgLen (s : State) (v : Word) : State := { s with progLen := v }
def State.setProg (s : State) (m : Memory) : State := { s with prog := m }
def State.setTape (s : State) (m : Memory) : State := { s with tape := m }
def State.setJt (s : State) (t : JumpTable) : State := { s with jt := t }
def State.setStk (s : State) (l : List Word) : State := { s with stk := l }
def State.setLoader (s : State) (l : Loader) : State := { s with loader := l }
def State.setHold (s : State) (h : Hold) : State := { s with hold := h }
def State.setLoadPort (s : State) (l : List LoadEvent) : State := { s with loadPort := l }
def State.setInPort (s : State) (l : List Byte) : State := { s with inPort := l }
def State.setOutStream (s : State) (l : List Byte) : State := { s with outStream := l }

/-- `v <- MemRead(dp, 1)` and what follows it (R13, R41). A state with `dp >= TAPE_CAP`, which no run
reaches, stops (DESIGN CHOICE, log entry 4). -/
def withCell (s : State) (next : Byte → Result) : Result :=
  if s.dp.toNat < s.params.tapeCap then next (s.cell s.dp.toNat) else .fault .tapeAddressOutOfRange

/-- `MemWrite(dp, 1, v)` (R13, R41), at the end of an execute part. -/
def storeCell (s : State) (v : Byte) : Result :=
  if s.dp.toNat < s.params.tapeCap then .next (s.setTape (Memory.write s.tape s.dp.toNat v))
  else .fault .tapeAddressOutOfRange

/-- `raise Fault(c)` (R138): `PHASE <- FAULTED`, `CAUSE <- c`, and nothing else changes. No state is saved,
there is no handler and no vector. -/
def raiseFault (c : Cause) (s : State) : State := s.setStatus .faulted c

/-- What `rst` does while it is asserted (R150), and the only way out of `FAULTED` (R139, R160): there is no
return from a fault. Every piece of the block's state takes its reset value; the parameters and what the
host holds on the ports are not the block's to reset (DESIGN CHOICE, log entry 7). -/
def resetEntry (s : State) : State :=
  { State.reset with
    params := s.params
    rst := s.rst
    loadPort := s.loadPort
    inPort := s.inPort
    inEnded := s.inEnded
    outReady := s.outReady }

/-- The state `s` with the byte `b` as the instruction its next step fetches: the run phase, `b` at `pc`,
and a `PROG_LEN` that reaches it. It stands for the load of a program from outside (DESIGN CHOICE, log
entry 9). -/
def placeInstr (s : State) (b : Byte) : State :=
  { s with
    rst := false
    phase := .run
    cause := .none
    hold := .free
    prog := Sparse.put s.prog s.pc.toNat b
    progLen := if s.pc.toNat < s.progLen.toNat then s.progLen else s.pc + 1#16 }

end Sys2Proof.Machine
end

