-- ==== Sys2Proof/Machine/Operands.lean ====
section
/-! DEFINITION. Operands.lean: the implicit operands of the instructions. No instruction names one
(spec/10_state.md R20, spec/30_encoding.md R62): they are `dp` as a ring counter (spec/42_tape_pointer.md
R100), the cell at `dp` (Ops.lean `withCell`, `storeCell`) and the jump-table entry at `pc - 1`
(spec/43_jumps.md R112). -/

namespace Sys2Proof.Machine

/-- `(a + 1) mod n` (R100, R102). -/
def ringSucc (n : Nat) (a : Word) : Word := BitVec.ofNat 16 ((a.toNat + 1) % n)

/-- `(a - 1) mod n`, the mathematical remainder (R12, R100, R103): never a 16-bit `0 - 1`. -/
def ringPred (n : Nat) (a : Word) : Word := BitVec.ofNat 16 ((a.toNat + n - 1) % n)

/-- The jump key, the bracket's own position: `pc - 1` while the execute part runs (R112, R162). -/
def State.jumpKey (s : State) : Nat := (s.pc - 1#16).toNat

/-- `pc <- lookup(pc - 1)` (R113): the entry's target, or the fault JT_MISS where the entry is invalid. -/
def takeJump (s : State) : State :=
  match s.jtTarget s.jumpKey with
  | some target => s.setPc target
  | none => raiseFault .jtMiss s

end Sys2Proof.Machine
end

