-- ==== Sys2Proof/Machine/CellArith.lean ====
section
/-! DEFINITION. CellArith.lean: INC and DEC (spec/41_cell_arith.md R89 to R91). -/

namespace Sys2Proof.Machine

/-- INC (R90). -/
def execInc (s : State) : Result := withCell s fun v => storeCell s (v + 1#8)

/-- DEC (R91). -/
def execDec (s : State) : Result := withCell s fun v => storeCell s (v - 1#8)

end Sys2Proof.Machine
end

