-- ==== Sys2Proof/Machine/Ports.lean ====
section
/-! DEFINITION. Ports.lean: the block's side of the `in` and `out` ports (spec/20_memory.md R53 to R56,
spec/44_io.md R122), and the host's moves on all the ports (spec/60_exceptions.md R147). -/

namespace Sys2Proof.Machine

/-- `In()` (R55): the next event of the input port and the state with it taken, or nothing while the host
has offered none. After the last byte of an ended stream it is `End`, every time (D21; DESIGN CHOICE,
log entry 13). -/
def takeInput (s : State) : Option (InEvent × State) :=
  match s.inPort with
  | b :: rest => some (.byte b, s.setInPort rest)
  | [] => if s.inEnded then some (.ended, s) else none

/-- What READ does on `End` (R122). -/
def eofAction (p : EofPolicy) (s : State) : Result :=
  match p with
  | .unchanged => .next s
  | .zero => storeCell s 0x00#8
  | .allOnes => storeCell s 0xFF#8
  | .fault => .next (raiseFault .inputEnd s)

/-- The body of READ from its `In()` on (R121), entered by READ itself and again by every step of its hold.
While no event is offered the instruction holds, and nothing but the hold itself changes (R55). -/
def inputTransfer (s : State) : Result :=
  match takeInput s with
  | none => .next (s.setHold .input)
  | some (.byte b, t) => storeCell (t.setHold .free) b
  | some (.ended, t) => eofAction t.params.pEof (t.setHold .free)

/-- `Out(v)` (R56), entered by WRITE and again by every step of its hold: the host accepts `v`, or the
instruction holds with `v`. -/
def outputTransfer (v : Byte) (s : State) : Result :=
  if s.outReady then .next ((s.setOutStream (s.outStream ++ [v])).setHold .free)
  else .next (s.setHold (.output v))

/-- What the host may do to the block between two of its steps (R53, R147; DESIGN CHOICE, log entry 17). -/
inductive HostMove where
  /-- Asserts `rst`: the run is abandoned at once (R150). -/
  | assertRst
  /-- Releases `rst`. -/
  | releaseRst
  /-- Offers one event on `load`. -/
  | offerLoad (e : LoadEvent)
  /-- Offers one byte on `in`; of no effect once the stream has ended (D21). -/
  | offerInput (b : Byte)
  /-- Ends the input stream behind the bytes offered so far. -/
  | endInput
  /-- Sets whether the host accepts output bytes. -/
  | acceptOutput (ready : Bool)
  /-- While `rst` is asserted: sets up the streams of the run that its release starts. -/
  | newStreams (load : List LoadEvent) (input : List Byte) (ended : Bool)
  deriving DecidableEq, Repr

/-- The state after a move of the host. -/
def hostMove (m : HostMove) (s : State) : State :=
  match m with
  | .assertRst => resetEntry { s with rst := true }
  | .releaseRst => { s with rst := false }
  | .offerLoad e => { s with loadPort := s.loadPort ++ [e] }
  | .offerInput b => if s.inEnded then s else { s with inPort := s.inPort ++ [b] }
  | .endInput => { s with inEnded := true }
  | .acceptOutput ready => { s with outReady := ready }
  | .newStreams load input ended =>
    if s.rst then { s with loadPort := load, inPort := input, inEnded := ended } else s

end Sys2Proof.Machine
end

