-- ==== Sys2Proof/Machine/CharIo.lean ====
section
/-! DEFINITION. CharIo.lean: WRITE and READ (spec/44_io.md R120 to R122). -/

namespace Sys2Proof.Machine

/-- WRITE (R120). -/
def execWrite (s : State) : Result := withCell s fun v => outputTransfer v s

/-- READ (R121). -/
def execRead (s : State) : Result := inputTransfer s

end Sys2Proof.Machine
end

