-- ==== Sys2Proof/Machine/Flags.lean ====
section
/-! DEFINITION. Flags.lean: the block has no flags (spec/10_state.md R29), so here stand the brackets' test
of the cell, and the `STATUS` register with its fields' codes (R30, R57, R130). -/

namespace Sys2Proof.Machine

/-- The test "cell at data pointer == 0" that the brackets make directly on the cell (R29). -/
def cellIsZero (v : Byte) : Bool := decide (v = 0#8)

/-- The code of `STATUS[2:0]` (R30). -/
def phaseCode : Phase → BitVec 3
  | .reset => 0#3
  | .load => 1#3
  | .run => 2#3
  | .halted => 3#3
  | .faulted => 4#3

/-- The code of `STATUS[5:3]` (R30, R130). -/
def causeCode : Cause → BitVec 3
  | .none => 0#3
  | .loadIoError => 1#3
  | .unbalancedClose => 2#3
  | .unbalancedOpen => 3#3
  | .jtMiss => 4#3
  | .inputEnd => 5#3

/-- The 8-bit `STATUS` register as the status port shows it (R30, R57): bits [7:6] read 0. -/
def State.status (s : State) : BitVec 8 := 0#2 ++ causeCode s.cause ++ phaseCode s.phase

end Sys2Proof.Machine
end

