-- ==== Sys2Proof/Machine/Jumps.lean ====
section
/-! DEFINITION. Jumps.lean: JF and JB (spec/43_jumps.md R110 to R116). The table is read only when the
condition selects the jump (R113). -/

namespace Sys2Proof.Machine

/-- JF (R110). -/
def execJf (s : State) : Result :=
  withCell s fun v => if cellIsZero v then .next (takeJump s) else .next s

/-- JB (R111). -/
def execJb (s : State) : Result :=
  withCell s fun v => if cellIsZero v then .next s else .next (takeJump s)

end Sys2Proof.Machine
end

