-- ==== Sys2Proof/Machine/Sequencer.lean ====
section
/-! DEFINITION. Sequencer.lean: NOP, the fetch and the halt of the program counter sequencer
(spec/40_cycle.md R80 to R84; spec/20_memory.md R42). -/

namespace Sys2Proof.Machine

/-- NOP (R82): the execute part does nothing, whatever the byte. -/
def execNop (_byte : Byte) (s : State) : Result := .next s

/-- `b <- Prog[pc]` (R42, R80). -/
def fetchByte (s : State) : Option Byte := s.progByte s.pc.toNat

/-- `pc <- pc + 1`, before dispatch (R80). -/
def advancePc (s : State) : State := s.setPc (s.pc + 1#16)

/-- The halt step (R81): `PHASE <- HALTED`, `CAUSE` stays NONE, nothing else changes. -/
def haltEntry (s : State) : State := s.setStatus .halted .none

end Sys2Proof.Machine
end

