-- ==== Sys2Proof/Machine/TapePointer.lean ====
section
/-! DEFINITION. TapePointer.lean: RIGHT and LEFT (spec/42_tape_pointer.md R100 to R103). -/

namespace Sys2Proof.Machine

/-- RIGHT (R102). -/
def execRight (s : State) : Result := .next (s.setDp (ringSucc s.params.tapeCap s.dp))

/-- LEFT (R103). -/
def execLeft (s : State) : Result := .next (s.setDp (ringPred s.params.tapeCap s.dp))

end Sys2Proof.Machine
end

