-- ==== Sys2Proof/Machine/Dispatch.lean ====
section
/-! DEFINITION. Dispatch.lean: the execute part of every instruction, one arm per constructor of Instr
(spec/40_cycle.md R80). -/

namespace Sys2Proof.Machine

/-- `execute(decode(b))` of R80, on a state whose `pc` the fetch has already advanced. -/
def exec (i : Instr) (s : State) : Host.Outcome State Fault Refusal :=
  match i with
  | .inc => Sys2Proof.Machine.execInc s
  | .dec => Sys2Proof.Machine.execDec s
  | .right => Sys2Proof.Machine.execRight s
  | .left => Sys2Proof.Machine.execLeft s
  | .jf => Sys2Proof.Machine.execJf s
  | .jb => Sys2Proof.Machine.execJb s
  | .write => Sys2Proof.Machine.execWrite s
  | .read => Sys2Proof.Machine.execRead s
  | .nop byte => Sys2Proof.Machine.execNop byte s

end Sys2Proof.Machine
end

