-- ==== Sys2Proof/Machine/Loader.lean ====
section
/-! DEFINITION. Loader.lean: the load phase (spec/70_reset_and_hazards.md R152 to R158), one transfer a step
and then one scanned position a step (DESIGN CHOICE, log entry 8). -/

namespace Sys2Proof.Machine

/-- The end of the copy loop: `PROG_LEN <- n`, and the scan starts with `Stk <- empty` (R152, R155). -/
def finishCopy (n : Nat) (s : State) : State :=
  ((s.setProgLen (BitVec.ofNat 16 n)).setStk []).setLoader (.scan 0)

/-- One turn of the copy loop with `n` bytes taken (R152): at `PROG_CAP` bytes no event is asked for (R153),
and while none is offered the loader holds (R54). -/
def copyStep (n : Nat) (s : State) : State :=
  if s.params.progCap ≤ n then finishCopy n s
  else
    match s.loadPort with
    | [] => s
    | .byte b :: rest =>
      ((s.setLoadPort rest).setProg (Sparse.put s.prog n b)).setLoader (.copy (n + 1))
    | .ended :: rest => finishCopy n (s.setLoadPort rest)
    | .error :: rest => raiseFault .loadIoError (s.setLoadPort rest)

/-- The two entries a `]` at `j` records when it pops `m`: `JT[m] <- (1, j + 1)`, `JT[j] <- (1, m + 1)`
(R155, R156). -/
def recordPair (m : Word) (j : Nat) (t : JumpTable) : JumpTable :=
  Sparse.put (Sparse.put t m.toNat (BitVec.ofNat 16 (j + 1))) j (m + 1#16)

/-- The scan at position `i`, which holds `b` (R155): `[` is pushed, `]` pops or raises UNBALANCED_CLOSE and
stops the scan there (R132), any other byte does nothing. -/
def scanByte (i : Nat) (b : Byte) (s : State) : State :=
  if b = jfByte then (s.setStk (BitVec.ofNat 16 i :: s.stk)).setLoader (.scan (i + 1))
  else if b = jbByte then
    match s.stk with
    | [] => raiseFault .unbalancedClose s
    | m :: rest => ((s.setStk rest).setJt (recordPair m i s.jt)).setLoader (.scan (i + 1))
  else s.setLoader (.scan (i + 1))

/-- After the last position: an empty stack enters the run phase (R158), any other is UNBALANCED_OPEN
(R133, R157). -/
def finishScan (s : State) : State :=
  match s.stk with
  | [] => s.setStatus .run .none
  | _ :: _ => raiseFault .unbalancedOpen s

/-- One turn of the scan (R155). -/
def scanStep (i : Nat) (s : State) : Result :=
  if i < s.progLen.toNat then
    match s.progByte i with
    | some b => .next (scanByte i b s)
    | none => .fault .programByteUnspecified
  else .next (finishScan s)

/-- One step of the load phase. -/
def loadStep (s : State) : Result :=
  match s.loader with
  | .copy n => .next (copyStep n s)
  | .scan i => scanStep i s

end Sys2Proof.Machine
end

