-- ==== Sys2Proof/Machine/Step.lean ====
section
/-! DEFINITION. Step.lean: one step of the block (spec/40_cycle.md R80, R81, R86; spec/20_memory.md R55, R56;
spec/70_reset_and_hazards.md R150, R158, R164). -/

namespace Sys2Proof.Machine

/-- A step boundary of the run phase: fetch, advance and execute one instruction (R80), halt at
`pc = PROG_LEN` (R81), stop at `pc > PROG_LEN` (D20). -/
def fetchStep (s : State) : Result :=
  if s.pc.toNat < s.progLen.toNat then
    match fetchByte s with
    | some b => exec (decode b) (advancePc s)
    | none => .fault .programByteUnspecified
  else if s.pc = s.progLen then .next (haltEntry s)
  else .fault .pcBeyondProgram

/-- A step of the run phase: the next instruction, or the one that holds on a port (R55, R56). -/
def runStep (s : State) : Result :=
  match s.hold with
  | .free => fetchStep s
  | .input => inputTransfer s
  | .output v => outputTransfer v s

/-- One step of the block. While `rst` is asserted it stays at the reset values (R150); its release leads
from RESET to LOAD; HALTED and FAULTED are terminal, so nothing changes in them (R86; DESIGN
CHOICE, log entry 5). -/
def step (s : State) : Host.Outcome State Fault Refusal :=
  if s.rst then .next (resetEntry s)
  else
    match s.phase with
    | .reset => .next (s.setStatus .load .none)
    | .load => loadStep s
    | .run => runStep s
    | .halted => .next s
    | .faulted => .next s

/-- `s` with the instruction of a table word where the next step fetches. -/
def State.withFetchWord (s : State) (nbits w : Nat) : State := placeInstr s (tableByte nbits w)

end Sys2Proof.Machine
end

