-- ==== Sys2Proof/WellFormed.lean ====
section
/-! DEFINITION. WellFormed.lean: the checks on instructions and on program texts
(spec/30_encoding.md R64, R70). -/

namespace Sys2Proof

/-- An instruction is well formed when it has an encoding of its own: a NOP's byte is none of the eight
opcode bytes (R64). -/
def Instr.wf : Instr → Bool
  | .inc => true
  | .dec => true
  | .right => true
  | .left => true
  | .jf => true
  | .jb => true
  | .write => true
  | .read => true
  | .nop b => !(opcodeBytes.contains b)

/-- How many brackets are open after the text `bs`, if `d` were open before it: `none` as soon as a `]`
closes nothing. It counts and keeps no positions, so it is not the loader's scan. -/
def bracketDepth : List Byte → Nat → Option Nat
  | [], d => some d
  | b :: rest, d =>
    if b = jfByte then bracketDepth rest (d + 1)
    else if b = jbByte then
      match d with
      | 0 => none
      | d' + 1 => bracketDepth rest d'
    else bracketDepth rest d

/-- A program is well formed exactly when its brackets are balanced (R70). -/
def Program.wf (bs : List Byte) : Bool := decide (bracketDepth bs 0 = some 0)

/-- R70 checks the program after truncation to `PROG_CAP` bytes (R153). -/
def Program.loadable (progCap : Nat) (bs : List Byte) : Bool := Program.wf (bs.take progCap)

end Sys2Proof
end

