-- ==== Sys2Proof/Safety.lean ====
section
/-! DEFINITION. Safety.lean: the terms claims use: runs and how they end (spec/40_cycle.md R85, R87), the
matched pairs of a loaded program (spec/10_state.md R27), and the invariant of the block. -/

namespace Sys2Proof.Machine

/-! ## Runs -/

/-- `k` steps, stopping at the first fault or refusal of the model. -/
def runSteps : Nat → State → Result
  | 0, s => .next s
  | k + 1, s =>
    match step s with
    | .next t => runSteps k t
    | .fault f => .fault f
    | .refused r => .refused r

/-- What happens next to the block: one of its own steps, or a move of the host between two of them (R147). -/
inductive Event where
  | tick
  | host (m : HostMove)
  deriving DecidableEq, Repr

/-- A run: steps of the block and moves of the host in any order. -/
def runEvents : List Event → State → Result
  | [], s => .next s
  | .host m :: rest, s => runEvents rest (hostMove m s)
  | .tick :: rest, s =>
    match step s with
    | .next t => runEvents rest t
    | .fault f => .fault f
    | .refused r => .refused r

/-- How far a run has come (R85, R87): a run cut off by fuel, held on a port or looping is not finished. -/
inductive Verdict where
  | succeeded
  | failed (c : Cause)
  | notFinished
  deriving DecidableEq, Repr

/-- A run has ended exactly when `PHASE` is HALTED or FAULTED, and succeeded exactly when it is HALTED (R87). -/
def State.verdict (s : State) : Verdict :=
  match s.phase with
  | .halted => .succeeded
  | .faulted => .failed s.cause
  | .reset => .notFinished
  | .load => .notFinished
  | .run => .notFinished

/-- The reset state of a block with parameters `p` whose host offers the program `bs` on the load port. -/
def bootState (p : Params) (bs : List Byte) : State :=
  { State.reset with params := p, loadPort := bs.map LoadEvent.byte ++ [LoadEvent.ended] }

/-- The execute parts of a sequence of instructions, one after the other, without fetches. -/
def execAll : List Instr → State → Result
  | [], s => .next s
  | i :: rest, s =>
    match exec i s with
    | .next t => execAll rest t
    | .fault f => .fault f
    | .refused r => .refused r

/-! ## Situations of the block -/

/-- The reset values the spec states (R32, R150). Program memory has none (D17). -/
def State.hasResetValues (s : State) : Prop :=
  s.status = 0#8 ∧ s.pc = 0#16 ∧ s.dp = 0#16 ∧ s.progLen = 0#16 ∧ (∀ a, s.cell a = 0#8)
    ∧ (∀ k, s.jtTarget k = none) ∧ s.stk = []

/-- A step boundary of the run phase: `rst` released and no instruction held on a port (R80). -/
def State.running (s : State) : Prop := s.rst = false ∧ s.phase = .run ∧ s.hold = .free

/-- The next step fetches the byte `b` (R80). -/
def State.fetches (s : State) (b : Byte) : Prop :=
  s.running ∧ s.pc.toNat < s.progLen.toNat ∧ s.progByte s.pc.toNat = some b

/-- `dp` is an address of the tape (R22, R41). -/
def State.dpInRange (s : State) : Prop := s.dp.toNat < s.params.tapeCap

/-- The current cell, `Tape[dp]` (R20). -/
def State.currentCell (s : State) : Byte := s.cell s.dp.toNat

/-! ## What the load phase leaves -/

/-- Every position below `n` holds a loaded byte. -/
def State.loadedBelow (s : State) (n : Nat) : Prop := ∀ a, a < n → ∃ b, s.progByte a = some b

/-- A matched pair of R27: `[` at `m`, `]` at `j`, `m < j`, `JT[m] = (1, j + 1)` and `JT[j] = (1, m + 1)`. -/
def State.paired (s : State) (m j : Nat) : Prop :=
  m < j ∧ s.progByte m = some jfByte ∧ s.progByte j = some jbByte
    ∧ s.jtTarget m = some (BitVec.ofNat 16 (j + 1)) ∧ s.jtTarget j = some (BitVec.ofNat 16 (m + 1))

/-- The jump table and the bracket stack are right for the positions below `i` (R27, R28, R155). -/
structure State.scannedTo (s : State) (i : Nat) : Prop where
  /-- The stack holds open brackets seen and not yet matched. -/
  openOnStack : ∀ p ∈ s.stk, p.toNat < i ∧ s.progByte p.toNat = some jfByte ∧ s.jtTarget p.toNat = none
  /-- The last one seen is on top. -/
  stackFalls : s.stk.Pairwise fun p q => q.toNat < p.toNat
  /-- Every `[` seen is on the stack or matched. -/
  openPlaced : ∀ m, m < i → s.progByte m = some jfByte →
    (∃ p ∈ s.stk, p.toNat = m) ∨ ∃ j, j < i ∧ s.paired m j
  /-- Every `]` seen is matched. -/
  closePlaced : ∀ j, j < i → s.progByte j = some jbByte → ∃ m, s.paired m j
  /-- Every valid entry belongs to a matched pair already seen. -/
  entryPaired : ∀ k t, s.jtTarget k = some t → ∃ m j, j < i ∧ s.paired m j ∧ (k = m ∨ k = j)

/-- `pc`, `dp` and the tape are as reset leaves them (R32, R138). -/
def State.engineFresh (s : State) : Prop := s.pc = 0#16 ∧ s.dp = 0#16 ∧ s.tape = []

/-- The loader's own state before and during the copy of R152, `n` bytes taken. -/
def State.copying (s : State) (n : Nat) : Prop :=
  n ≤ s.params.progCap ∧ s.progLen = 0#16 ∧ s.jt = [] ∧ s.stk = [] ∧ s.loadedBelow n

/-- The loader's own state during the scan of R155, at position `i`. -/
def State.scanning (s : State) (i : Nat) : Prop :=
  i ≤ s.progLen.toNat ∧ s.loadedBelow s.progLen.toNat ∧ s.scannedTo i

/-- What the load phase keeps, by the loader's place. -/
def State.loading (s : State) : Prop :=
  match s.loader with
  | .copy n => s.copying n
  | .scan i => s.scanning i

/-- What a successful load leaves and the run phase keeps (R27, R158). -/
def State.loaded (s : State) : Prop :=
  s.stk = [] ∧ s.loadedBelow s.progLen.toNat ∧ s.scannedTo s.progLen.toNat

/-! ## The invariant -/

/-- The invariant of the block: every step and every move of the host keeps it. -/
structure State.Inv (s : State) : Prop where
  /-- The capacities meet R6 and R7. -/
  paramsWf : s.params.wf = true
  /-- `dp` is always in `[0, TAPE_CAP)` (R22). -/
  dpBound : s.dpInRange
  /-- `0 <= pc <= PROG_LEN` (R21, R84). -/
  pcBound : s.pc.toNat ≤ s.progLen.toNat
  /-- `PROG_LEN` is in `[0, PROG_CAP]` (R24). -/
  lenBound : s.progLen.toNat ≤ s.params.progCap
  /-- The tape keeps its canonical form. -/
  tapeWf : Memory.wf s.tape = true
  /-- The tape has addresses below `TAPE_CAP` only (R25). -/
  tapeBound : ∀ c ∈ s.tape, c.1 < s.params.tapeCap
  /-- Program memory keeps its canonical form. -/
  progRising : Sparse.rising s.prog = true
  /-- Program memory has addresses below `PROG_CAP` only (R23). -/
  progBound : ∀ c ∈ s.prog, c.1 < s.params.progCap
  /-- The jump table keeps its canonical form. -/
  jtRising : Sparse.rising s.jt = true
  /-- The jump table has keys below `PROG_CAP` only (R26). -/
  jtBound : ∀ c ∈ s.jt, c.1 < s.params.progCap
  /-- `CAUSE` is NONE unless `PHASE` is FAULTED, and names a fault there (R30, R138). -/
  causeFaulted : s.cause ≠ .none ↔ s.phase = .faulted
  /-- JT_MISS is never raised (R113, R134). -/
  noJtMiss : s.cause ≠ .jtMiss
  /-- Only an instruction of the run phase holds on a port (R86). -/
  holdInRun : s.hold ≠ .free → s.phase = .run
  /-- In RESET everything is at its reset value (R150). -/
  inReset : s.phase = .reset → s.engineFresh ∧ s.loader = .copy 0 ∧ s.copying 0
  /-- In LOAD the engine is idle and the loader on its way (R33, R86). -/
  inLoad : s.phase = .load → s.engineFresh ∧ s.loading
  /-- In RUN the program is loaded and its jump table complete (R158, R161). -/
  inRun : s.phase = .run → s.loaded
  /-- In HALTED too, and the program is exhausted (R81). -/
  inHalted : s.phase = .halted → s.loaded ∧ s.pc = s.progLen

end Sys2Proof.Machine
end

