-- ==== Sys2Proof/Certificates/Slice0/Obligations.lean ====
section
/-! DEFINITION. Obligations.lean: the statements for the provers. Each docstring names the rule of spec/ it
formalises, or the log entry of notes/assumptions/ where it is about the model's own choice. -/

open Sys2Proof Sys2Proof.Machine

/-! ## Encoding -/

/-- R63: the eight opcode bytes, all 8 bits compared exactly. -/
def Obligations.OpcodeMapComparesAllBits : Prop :=
  ∀ b : Byte,
    (decode b = .inc ↔ b = 0x2B#8) ∧ (decode b = .dec ↔ b = 0x2D#8)
    ∧ (decode b = .right ↔ b = 0x3E#8) ∧ (decode b = .left ↔ b = 0x3C#8)
    ∧ (decode b = .jf ↔ b = 0x5B#8) ∧ (decode b = .jb ↔ b = 0x5D#8)
    ∧ (decode b = .write ↔ b = 0x2E#8) ∧ (decode b = .read ↔ b = 0x2C#8)

/-- R64: every other byte value is a NOP, 248 values in all. -/
def Obligations.EveryOtherByteIsNop : Prop :=
  (∀ b : Byte, decode b = .nop b ↔
    (b.toNat ≤ 0x2A ∨ (0x2F ≤ b.toNat ∧ b.toNat ≤ 0x3B) ∨ b.toNat = 0x3D
      ∨ (0x3F ≤ b.toNat ∧ b.toNat ≤ 0x5A) ∨ b.toNat = 0x5C ∨ 0x5E ≤ b.toNat))
  ∧ ((List.range 256).filter fun n =>
      decide (decode (BitVec.ofNat 8 n) = .nop (BitVec.ofNat 8 n))).length = 248

/-- R60, R66: an instruction is one byte, and the decoder leaves the bytes behind it alone; only the lack of
a byte is rejected. -/
def Obligations.DecoderTakesExactlyOneByte : Prop :=
  (∀ (i : Instr) (rest : List Byte), i.wf = true →
    (encode i).length = 1 ∧ decodeBytes (encode i ++ rest) = .instr i rest)
  ∧ (∀ bs : List Byte, decodeBytes bs = .rejected .noByte ↔ bs = [])

/-- R60, R65, R69: instruction sequences and program texts are the same thing, in both directions. -/
def Obligations.DecodeAndEncodeAgreeOnPrograms : Prop :=
  (∀ is : List Instr, (∀ i ∈ is, i.wf = true) → decodeProgram (encodeProgram is) = is)
  ∧ (∀ bs : List Byte, encodeProgram (decodeProgram bs) = bs ∧ ∀ i ∈ decodeProgram bs, i.wf = true)

/-! ## Reset -/

/-- R32, R150: the state after reset has the values the spec states. -/
def Obligations.ResetStateHasTheSpecValues : Prop :=
  State.reset.hasResetValues ∧ State.reset.phase = .reset ∧ State.reset.cause = .none

/-- R150: while `rst` is asserted every piece of state is at its reset value and no port transfer takes
place; asserting it does the same at once, in any phase; its release leads to LOAD, where the load begins. The
model's choices in it: what the host has offered on `load` and `in` stays offered and the record of the output
does not grow (log entry 7), and the release is a step of its own (log entry 8). -/
def Obligations.ResetAbandonsTheRun : Prop :=
  (∀ s : State, s.rst = true → ∃ t, step s = .next t ∧ t.hasResetValues ∧ t.hold = .free
    ∧ t.loader = .copy 0 ∧ t.rst = true ∧ t.loadPort = s.loadPort ∧ t.inPort = s.inPort
    ∧ t.outStream.length ≤ s.outStream.length)
  ∧ (∀ s t : State, t = hostMove .assertRst s → t.hasResetValues ∧ t.hold = .free ∧ t.loader = .copy 0
    ∧ t.rst = true ∧ t.phase = .reset ∧ t.loadPort = s.loadPort ∧ t.inPort = s.inPort
    ∧ t.outStream.length ≤ s.outStream.length)
  ∧ (∀ s : State, s.rst = false → s.phase = .reset →
    step s = .next { s with phase := .load, cause := .none })

/-! ## The step -/

/-- R80: fetch, advance, execute the decoded instruction. -/
def Obligations.StepRunsTheDecodedInstruction : Prop :=
  ∀ (s : State) (b : Byte), s.fetches b → step s = exec (decode b) { s with pc := s.pc + 1#16 }

/-- R80: the next `pc` is `pc + 1` or the jump-table target of a bracket, and has no other source. -/
def Obligations.NextPcHasTwoSources : Prop :=
  ∀ (s t : State) (b : Byte), s.fetches b → step s = .next t →
    t.pc = s.pc + 1#16
    ∨ ((decode b = .jf ∨ decode b = .jb) ∧ s.jtTarget s.pc.toNat = some t.pc)

/-- R81, D20: at `pc = PROG_LEN` the block halts and nothing but `STATUS` changes; a `pc` beyond it, which no
run reaches, is a fault that names the state. -/
def Obligations.ProgramEndHalts : Prop :=
  (∀ s : State, s.running → s.pc = s.progLen →
    step s = .next { s with phase := .halted, cause := .none })
  ∧ (∀ s : State, s.running → s.progLen.toNat < s.pc.toNat → step s = .fault .pcBeyondProgram)

/-- R83: the run phase of an empty program is the halt alone: no instruction, no tape change, no output. -/
def Obligations.EmptyProgramHaltsAtOnce : Prop :=
  ∀ s : State, s.Inv → s.running → s.progLen = 0#16 →
    step s = .next { s with phase := .halted, cause := .none }

/-- R86: no instruction executes unless `PHASE = RUN`; HALTED and FAULTED are terminal until `rst`. -/
def Obligations.NothingExecutesOutsideRun : Prop :=
  (∀ s t : State, s.rst = false → s.phase ≠ .run → step s = .next t →
    t.pc = s.pc ∧ t.dp = s.dp ∧ t.tape = s.tape ∧ t.inPort = s.inPort ∧ t.outStream = s.outStream
    ∧ t.hold = s.hold)
  ∧ (∀ s : State, s.rst = false → s.phase = .halted ∨ s.phase = .faulted →
    ∀ k, runSteps k s = .next s)
  ∧ (∀ s : State, s.rst = true → ∃ t, step s = .next t ∧ t.phase = .reset)

/-- R87, R85: a run has ended exactly in HALTED or FAULTED and succeeded exactly in HALTED; an ended run stays
as it is; a run held on an input that never comes is not finished, however many steps it is given. -/
def Obligations.RunEndsExactlyInHaltedOrFaulted : Prop :=
  (∀ s : State, s.verdict ≠ .notFinished ↔ s.phase = .halted ∨ s.phase = .faulted)
  ∧ (∀ s : State, s.verdict = .succeeded ↔ s.phase = .halted)
  ∧ (∀ s : State, s.rst = false → s.verdict ≠ .notFinished → ∀ k, runSteps k s = .next s)
  ∧ (∀ s : State, s.rst = false → s.phase = .run → s.hold = .input → s.inPort = [] → s.inEnded = false →
    ∀ k, ∃ t, runSteps k s = .next t ∧ t.verdict = .notFinished)

/-- R57: `PHASE` changes only at the release of reset (R150), the end of the scan (R158), the halt (R81) and
a fault (R138); a fault's cause is set with it. -/
def Obligations.PhaseChangesOnlyAtItsTransitions : Prop :=
  ∀ s t : State, step s = .next t → t.phase ≠ s.phase →
    (s.rst = true ∧ t.phase = .reset)
    ∨ (s.rst = false ∧ s.phase = .reset ∧ t.phase = .load)
    ∨ (s.rst = false ∧ s.phase = .load ∧ t.phase = .run ∧ s.stk = []
        ∧ ∃ i, s.loader = .scan i ∧ s.progLen.toNat ≤ i)
    ∨ (s.running ∧ s.pc = s.progLen ∧ t.phase = .halted)
    ∨ (s.rst = false ∧ (s.phase = .load ∨ s.phase = .run) ∧ t.phase = .faulted ∧ t.cause ≠ .none)

/-- R30: the fields of `STATUS` and their codes; bits [7:6] read 0; `CAUSE` is 0 unless `PHASE = 4`. -/
def Obligations.StatusFieldsHaveTheSpecCodes : Prop :=
  (∀ s : State, s.status.extractLsb' 6 2 = 0#2)
  ∧ (∀ s : State, s.status.extractLsb' 0 3 =
      match s.phase with
      | .reset => 0#3 | .load => 1#3 | .run => 2#3 | .halted => 3#3 | .faulted => 4#3)
  ∧ (∀ s : State, s.status.extractLsb' 3 3 =
      match s.cause with
      | .none => 0#3 | .loadIoError => 1#3 | .unbalancedClose => 2#3 | .unbalancedOpen => 3#3
      | .jtMiss => 4#3 | .inputEnd => 5#3)
  ∧ (∀ s : State, s.Inv → s.status.extractLsb' 0 3 ≠ 4#3 → s.status.extractLsb' 3 3 = 0#3)

/-! ## The instructions -/

/-- R82: a NOP's only change is the fetch's advance, whatever its byte; a stretch of NOPs up to the end of
the program runs one step a byte and halts. -/
def Obligations.NopOnlyAdvancesPc : Prop :=
  (∀ (b : Byte) (s : State), exec (.nop b) s = .next s)
  ∧ (∀ (b : Byte) (s : State), s.fetches b → decode b = .nop b →
    step s = .next { s with pc := s.pc + 1#16 })
  ∧ (∀ s : State, s.running → s.pc.toNat ≤ s.progLen.toNat →
    (∀ a, s.pc.toNat ≤ a → a < s.progLen.toNat →
      ∃ b, s.progByte a = some b ∧ decode b = .nop b) →
    runSteps (s.progLen.toNat - s.pc.toNat + 1) s
      = .next { s with pc := s.progLen, phase := .halted, cause := .none })

/-- R90 with R89: INC adds 1 modulo 256 to the current cell and changes nothing else; 256 times INC restore
the whole state. -/
def Obligations.IncAddsOneModulo256 : Prop :=
  decode 0x2B#8 = .inc
  ∧ ∀ s : State, Memory.wf s.tape = true → s.dpInRange →
    (∃ t, exec .inc s = .next t ∧ t = { s with tape := t.tape }
      ∧ t.currentCell.toNat = (s.currentCell.toNat + 1) % 256
      ∧ ∀ a, a ≠ s.dp.toNat → t.cell a = s.cell a)
    ∧ execAll (List.replicate 256 .inc) s = .next s

/-- R91 with R89: DEC subtracts 1 modulo 256 from the current cell and changes nothing else; INC then DEC and
DEC then INC restore the whole state. -/
def Obligations.DecSubtractsOneModulo256 : Prop :=
  decode 0x2D#8 = .dec
  ∧ ∀ s : State, Memory.wf s.tape = true → s.dpInRange →
    (∃ t, exec .dec s = .next t ∧ t = { s with tape := t.tape }
      ∧ (t.currentCell.toNat : Int) = ((s.currentCell.toNat : Int) - 1) % 256
      ∧ ∀ a, a ≠ s.dp.toNat → t.cell a = s.cell a)
    ∧ execAll [.inc, .dec] s = .next s ∧ execAll [.dec, .inc] s = .next s

/-- R102 with R100: RIGHT moves `dp` to `(dp + 1) mod TAPE_CAP` and changes nothing else. -/
def Obligations.RightMovesDpRoundTheRing : Prop :=
  decode 0x3E#8 = .right
  ∧ ∀ s : State, s.params.wf = true →
    ∃ t, exec .right s = .next t ∧ t = { s with dp := t.dp }
      ∧ (t.dp.toNat : Int) = ((s.dp.toNat : Int) + 1) % (s.params.tapeCap : Int)

/-- R103 with R100: LEFT moves `dp` to `(dp - 1) mod TAPE_CAP`, the mathematical remainder, and changes
nothing else; LEFT then RIGHT restore the whole state. -/
def Obligations.LeftMovesDpRoundTheRing : Prop :=
  decode 0x3C#8 = .left
  ∧ ∀ s : State, s.params.wf = true →
    (∃ t, exec .left s = .next t ∧ t = { s with dp := t.dp }
      ∧ (t.dp.toNat : Int) = ((s.dp.toNat : Int) - 1) % (s.params.tapeCap : Int))
    ∧ (s.dpInRange → execAll [.left, .right] s = .next s)

/-- R100: RIGHT then LEFT restore the whole state, and `TAPE_CAP` moves to either side lead once round the
tape. -/
def Obligations.PointerMovesAreCyclic : Prop :=
  ∀ s : State, s.params.wf = true → s.dpInRange →
    execAll [.right, .left] s = .next s
    ∧ execAll (List.replicate s.params.tapeCap .right) s = .next s
    ∧ execAll (List.replicate s.params.tapeCap .left) s = .next s

/-- R110: JF's three outcomes. -/
def Obligations.JfJumpsOnZeroCell : Prop :=
  decode 0x5B#8 = .jf
  ∧ ∀ s : State, s.dpInRange →
    (s.currentCell ≠ 0#8 → exec .jf s = .next s)
    ∧ (∀ target, s.currentCell = 0#8 → s.jtTarget (s.pc - 1#16).toNat = some target →
        exec .jf s = .next { s with pc := target })
    ∧ (s.currentCell = 0#8 → s.jtTarget (s.pc - 1#16).toNat = none →
        exec .jf s = .next { s with phase := .faulted, cause := .jtMiss })

/-- R111: JB's three outcomes. -/
def Obligations.JbJumpsOnNonZeroCell : Prop :=
  decode 0x5D#8 = .jb
  ∧ ∀ s : State, s.dpInRange →
    (s.currentCell = 0#8 → exec .jb s = .next s)
    ∧ (∀ target, s.currentCell ≠ 0#8 → s.jtTarget (s.pc - 1#16).toNat = some target →
        exec .jb s = .next { s with pc := target })
    ∧ (s.currentCell ≠ 0#8 → s.jtTarget (s.pc - 1#16).toNat = none →
        exec .jb s = .next { s with phase := .faulted, cause := .jtMiss })

/-- R112, R162: a step that takes a jump looks the table up at the bracket's own position. -/
def Obligations.JumpKeyIsTheBracketsPosition : Prop :=
  (∀ (s : State) (target : Word), s.fetches 0x5B#8 → s.dpInRange → s.currentCell = 0#8 →
    s.jtTarget s.pc.toNat = some target → step s = .next { s with pc := target })
  ∧ (∀ (s : State) (target : Word), s.fetches 0x5D#8 → s.dpInRange → s.currentCell ≠ 0#8 →
    s.jtTarget s.pc.toNat = some target → step s = .next { s with pc := target })

/-- R116, R110, R111: in a loaded program a taken `[` resumes one past the `]` that the loader matched with
it, a taken `]` one past its `[`, and nothing but `pc` changes. -/
def Obligations.BracketsResumeBehindTheirPartners : Prop :=
  (∀ s : State, s.Inv → s.fetches 0x5B#8 → s.currentCell = 0#8 →
    ∃ j, s.paired s.pc.toNat j ∧ step s = .next { s with pc := BitVec.ofNat 16 (j + 1) })
  ∧ (∀ s : State, s.Inv → s.fetches 0x5D#8 → s.currentCell ≠ 0#8 →
    ∃ m, s.paired m s.pc.toNat ∧ step s = .next { s with pc := BitVec.ofNat 16 (m + 1) })
  ∧ (∀ s : State, s.Inv → s.fetches 0x5B#8 → s.currentCell ≠ 0#8 →
    step s = .next { s with pc := s.pc + 1#16 })
  ∧ (∀ s : State, s.Inv → s.fetches 0x5D#8 → s.currentCell = 0#8 →
    step s = .next { s with pc := s.pc + 1#16 })

/-- R111 (corner case), R85: `[]` entered with a non-zero cell loops for ever. -/
def Obligations.EmptyLoopRunsForever : Prop :=
  ∀ s : State, s.fetches 0x5D#8 → s.dpInRange → s.currentCell ≠ 0#8 →
    s.jtTarget s.pc.toNat = some s.pc → ∀ k, runSteps k s = .next s

/-- R120: WRITE offers the current cell as it is; the host accepts it, or the instruction holds. -/
def Obligations.WriteEmitsTheCurrentCell : Prop :=
  decode 0x2E#8 = .write
  ∧ ∀ s : State, s.dpInRange →
    (s.outReady = true →
      exec .write s = .next { s with outStream := s.outStream ++ [s.currentCell], hold := .free })
    ∧ (s.outReady = false → exec .write s = .next { s with hold := .output s.currentCell })

/-- R121, R122: READ takes exactly one event; a byte is stored, `End` follows `P_EOF`, and while there is no
event the instruction holds. -/
def Obligations.ReadTakesOneInputEvent : Prop :=
  decode 0x2C#8 = .read
  ∧ ∀ s : State, Memory.wf s.tape = true → s.dpInRange →
    (∀ b rest, s.inPort = b :: rest →
      ∃ t, exec .read s = .next t ∧ t = { s with tape := t.tape, inPort := rest, hold := .free }
        ∧ t.currentCell = b ∧ ∀ a, a ≠ s.dp.toNat → t.cell a = s.cell a)
    ∧ (s.inPort = [] → s.inEnded = false → exec .read s = .next { s with hold := .input })
    ∧ (s.inPort = [] → s.inEnded = true →
      (s.params.pEof = .unchanged → exec .read s = .next { s with hold := .free })
      ∧ (s.params.pEof = .zero →
        ∃ t, exec .read s = .next t ∧ t = { s with tape := t.tape, hold := .free }
          ∧ t.currentCell = 0#8 ∧ ∀ a, a ≠ s.dp.toNat → t.cell a = s.cell a)
      ∧ (s.params.pEof = .allOnes →
        ∃ t, exec .read s = .next t ∧ t = { s with tape := t.tape, hold := .free }
          ∧ t.currentCell = 255#8 ∧ ∀ a, a ≠ s.dp.toNat → t.cell a = s.cell a)
      ∧ (s.params.pEof = .fault →
        exec .read s = .next { s with hold := .free, phase := .faulted, cause := .inputEnd }))

/-- The frame of every instruction (R20, R22, R29, R41, R52, R56): what exec leaves unchanged when it gives
a next state. -/
def Obligations.ExecFrameOfEveryInstruction : Prop :=
  ∀ (i : Instr) (s t : State), exec i s = .next t →
    (t.params = s.params ∧ t.progLen = s.progLen ∧ t.prog = s.prog ∧ t.jt = s.jt ∧ t.stk = s.stk
      ∧ t.loader = s.loader ∧ t.rst = s.rst ∧ t.loadPort = s.loadPort ∧ t.inEnded = s.inEnded
      ∧ t.outReady = s.outReady)
    ∧ (∀ a, a ≠ s.dp.toNat → t.cell a = s.cell a)
    ∧ (i ≠ .inc → i ≠ .dec → i ≠ .read → t.tape = s.tape)
    ∧ (i ≠ .right → i ≠ .left → t.dp = s.dp)
    ∧ (i ≠ .jf → i ≠ .jb → t.pc = s.pc)
    ∧ (i ≠ .write → t.outStream = s.outStream)
    ∧ (i ≠ .read → t.inPort = s.inPort)
    ∧ (i ≠ .write → i ≠ .read → t.hold = s.hold)
    ∧ (i ≠ .jf → i ≠ .jb → i ≠ .read → t.phase = s.phase ∧ t.cause = s.cause)

/-- Log entry 4 (R25, R41): an access while `dp` is no address of the tape, in a state no run reaches, stops
by name; the instructions that make no access do not. -/
def Obligations.AccessOutsideTheTapeStops : Prop :=
  ∀ s : State, ¬ s.dpInRange →
    (∀ i, i = .inc ∨ i = .dec ∨ i = .jf ∨ i = .jb ∨ i = .write →
      exec i s = .fault .tapeAddressOutOfRange)
    ∧ (∀ b rest, s.inPort = b :: rest → exec .read s = .fault .tapeAddressOutOfRange)
    ∧ (s.inPort = [] → s.inEnded = true → s.params.pEof = .zero ∨ s.params.pEof = .allOnes →
      exec .read s = .fault .tapeAddressOutOfRange)

/-! ## Ports -/

/-- R54: the load port is read only in LOAD, one event at a time, before `PROG_CAP` bytes are taken and never
again once the scan has begun; while no event is offered the loader holds. -/
def Obligations.LoadPortIsReadOnlyByTheCopy : Prop :=
  (∀ s t : State, step s = .next t → t.loadPort ≠ s.loadPort →
    s.rst = false ∧ s.phase = .load
    ∧ ∃ n e, s.loader = .copy n ∧ n < s.params.progCap ∧ s.loadPort = e :: t.loadPort)
  ∧ (∀ (s t : State) (i : Nat), s.rst = false → s.loader = .scan i → step s = .next t →
    ∃ j, t.loader = .scan j)
  ∧ (∀ (s : State) (n : Nat), s.rst = false → s.phase = .load → s.loader = .copy n →
    n < s.params.progCap → s.loadPort = [] → ∀ k, runSteps k s = .next s)

/-- R55: the input port is read only by READ, one event each time; a held READ changes nothing, for as long
as no event is offered, and goes on as READ does when one is. -/
def Obligations.InputPortIsReadOnlyByRead : Prop :=
  (∀ s t : State, step s = .next t → t.inPort ≠ s.inPort →
    s.rst = false ∧ ((∃ b, s.fetches b ∧ decode b = .read) ∨ (s.phase = .run ∧ s.hold = .input))
    ∧ ∃ b, s.inPort = b :: t.inPort)
  ∧ (∀ s : State, s.rst = false → s.phase = .run → s.hold = .input → s.inPort = [] → s.inEnded = false →
    ∀ k, runSteps k s = .next s)
  ∧ (∀ s : State, s.rst = false → s.phase = .run → s.hold = .input → step s = exec .read s)

/-- R53, D21: once the input stream has ended it gives `End` for ever: no step brings a byte back (first
clause). The second clause is the model's choice (log entry 13): a byte that a host outside the contract offers
after the end has no effect, so that no move of the host but new streams under reset brings one back. -/
def Obligations.EndOfInputIsForever : Prop :=
  (∀ s t : State, s.inPort = [] → s.inEnded = true → step s = .next t →
    t.inPort = [] ∧ t.inEnded = true)
  ∧ (∀ (s : State) (m : HostMove), s.inPort = [] → s.inEnded = true → s.rst = false →
    (hostMove m s).inPort = [] ∧ (hostMove m s).inEnded = true)

/-- R56: the output stream grows only by a WRITE, one byte each, the value of the cell when it executed; a
WRITE not accepted holds with `pc` advanced and changes nothing until the host accepts. -/
def Obligations.OutputPortIsWrittenOnlyByWrite : Prop :=
  (∀ s t : State, s.rst = false → step s = .next t → t.outStream ≠ s.outStream →
    ∃ v, t.outStream = s.outStream ++ [v] ∧ s.outReady = true
      ∧ ((∃ b, s.fetches b ∧ decode b = .write ∧ v = s.currentCell)
          ∨ (s.phase = .run ∧ s.hold = .output v)))
  ∧ (∀ s : State, s.fetches 0x2E#8 → s.dpInRange → s.outReady = false →
    step s = .next { s with pc := s.pc + 1#16, hold := .output s.currentCell })
  ∧ (∀ (s : State) (v : Byte), s.rst = false → s.phase = .run → s.hold = .output v → s.outReady = false →
    ∀ k, runSteps k s = .next s)
  ∧ (∀ (s : State) (v : Byte), s.rst = false → s.phase = .run → s.hold = .output v → s.outReady = true →
    step s = .next { s with outStream := s.outStream ++ [v], hold := .free })

/-! ## State ownership and bounds -/

/-- R22: `dp` is always in `[0, TAPE_CAP)`; only RIGHT and LEFT write it, and reset clears it; at
`TAPE_CAP = 32768` its bit 15 is 0. -/
def Obligations.OnlyPointerMovesWriteDp : Prop :=
  (∀ s t : State, s.Inv → step s = .next t → t.dp.toNat < t.params.tapeCap)
  ∧ (∀ s t : State, step s = .next t → t.dp ≠ s.dp →
    (s.rst = true ∧ t.dp = 0#16) ∨ ∃ b, s.fetches b ∧ (decode b = .right ∨ decode b = .left))
  ∧ (∀ s : State, s.Inv → s.params.tapeCap = 32768 → s.dp.getLsbD 15 = false)

/-- R84: `pc` never wraps and never leaves `[0, PROG_LEN]`; at `PROG_CAP = 32768` its largest value is
`0x8000`, and that only for a program that fills program memory. -/
def Obligations.PcNeverWraps : Prop :=
  (∀ (s : State) (b : Byte), s.Inv → s.fetches b →
    (s.pc + 1#16).toNat = s.pc.toNat + 1 ∧ (s.pc + 1#16).toNat ≤ s.progLen.toNat)
  ∧ (∀ s t : State, s.Inv → step s = .next t → t.pc.toNat ≤ t.progLen.toNat)
  ∧ (∀ s : State, s.Inv → s.params.progCap = 32768 →
    s.pc.toNat ≤ 0x8000 ∧ (s.pc.toNat = 0x8000 → s.progLen.toNat = s.params.progCap))

/-- R33, R52: only the run phase writes `pc`, `dp` and the tape; only the load phase writes program memory,
`PROG_LEN`, the jump table and the bracket stack; no instruction writes them. -/
def Obligations.EngineAndLoaderOwnTheirState : Prop :=
  (∀ s t : State, s.rst = false → s.phase ≠ .run → step s = .next t →
    t.pc = s.pc ∧ t.dp = s.dp ∧ t.tape = s.tape)
  ∧ (∀ s t : State, s.rst = false → s.phase ≠ .load → step s = .next t →
    t.prog = s.prog ∧ t.progLen = s.progLen ∧ t.jt = s.jt ∧ t.stk = s.stk)

/-- R31: the parameters are fixed. That `rst`, the end mark of the input stream and the host's readiness for
output are the host's, and levels that no step changes, is the model's choice (log entries 13, 16 and 17). -/
def Obligations.StepLeavesParametersRstInputEndAndReadiness : Prop :=
  ∀ s t : State, step s = .next t →
    t.params = s.params ∧ t.rst = s.rst ∧ t.inEnded = s.inEnded ∧ t.outReady = s.outReady

/-- R28: the bracket stack never holds more positions than the program has, so it cannot overflow. -/
def Obligations.BracketStackCannotOverflow : Prop :=
  ∀ s : State, s.Inv → s.phase ≠ .faulted →
    s.stk.length ≤ s.progLen.toNat ∧ s.stk.length ≤ s.params.progCap

/-! ## Faults -/

/-- R138: a fault sets `PHASE` and `CAUSE` and nothing else; a run-phase fault is precise, with `pc` at the
faulting position plus one; a load-phase fault leaves the engine at reset and the load where it was; nothing executes
after it. -/
def Obligations.FaultsArePreciseAndFinal : Prop :=
  (∀ (s t : State) (b : Byte), s.fetches b → step s = .next t → t.phase = .faulted →
    t = { s with pc := s.pc + 1#16, phase := .faulted, cause := t.cause }
    ∧ (t.cause = .jtMiss ∨ t.cause = .inputEnd))
  ∧ (∀ s t : State, s.rst = false → s.phase = .run → s.hold = .input → step s = .next t →
    t.phase = .faulted → t = { s with hold := .free, phase := .faulted, cause := .inputEnd })
  ∧ (∀ s t : State, s.Inv → s.phase = .load → step s = .next t → t.phase = .faulted →
    t = { s with loadPort := t.loadPort, phase := .faulted, cause := t.cause } ∧ t.cause ≠ .none
    ∧ t.pc = 0#16 ∧ t.dp = 0#16 ∧ ∀ a, t.cell a = 0#8)
  ∧ (∀ t : State, t.rst = false → t.phase = .faulted → ∀ k, runSteps k t = .next t)

/-- R137, R131: a load port that gives `LErr` reports LOAD_IO_ERROR, whatever bytes came before, and nothing
of the engine has changed. -/
def Obligations.LoadErrorComesFirst : Prop :=
  ∀ (p : Params) (bs : List Byte) (rest : List LoadEvent), p.wf = true → bs.length < p.progCap →
    ∃ k t, runSteps k { bootState p bs with loadPort := bs.map LoadEvent.byte ++ .error :: rest } = .next t
      ∧ t.phase = .faulted ∧ t.cause = .loadIoError ∧ t.loadPort = rest
      ∧ t.pc = 0#16 ∧ t.dp = 0#16 ∧ (∀ a, t.cell a = 0#8) ∧ t.outStream = []

/-! ## The load phase -/

/-- R152, R131: the copy loop, turn by turn. -/
def Obligations.LoaderCopiesTheProgram : Prop :=
  ∀ (s : State) (n : Nat), s.rst = false → s.phase = .load → s.loader = .copy n →
    (s.params.progCap ≤ n → step s = .next { s with
      progLen := BitVec.ofNat 16 n, stk := [], loader := .scan 0 })
    ∧ (n < s.params.progCap →
      (s.loadPort = [] → step s = .next s)
      ∧ (∀ b rest, s.loadPort = .byte b :: rest →
        ∃ t, step s = .next t ∧ t = { s with prog := t.prog, loadPort := rest, loader := .copy (n + 1) }
          ∧ t.progByte n = some b ∧ ∀ a, a ≠ n → t.progByte a = s.progByte a)
      ∧ (∀ rest, s.loadPort = .ended :: rest → step s = .next { s with
        loadPort := rest, progLen := BitVec.ofNat 16 n, stk := [], loader := .scan 0 })
      ∧ (∀ rest, s.loadPort = .error :: rest → step s = .next { s with
        loadPort := rest, phase := .faulted, cause := .loadIoError }))

/-- R155, R156, R132, R133, R157: the scan, turn by turn. -/
def Obligations.ScanResolvesTheJumps : Prop :=
  ∀ (s : State) (i : Nat), s.Inv → s.rst = false → s.phase = .load → s.loader = .scan i →
    (i < s.progLen.toNat →
      (s.progByte i = some 0x5B#8 →
        step s = .next { s with stk := BitVec.ofNat 16 i :: s.stk, loader := .scan (i + 1) })
      ∧ (∀ m rest, s.progByte i = some 0x5D#8 → s.stk = m :: rest →
        ∃ t, step s = .next t ∧ t = { s with stk := rest, jt := t.jt, loader := .scan (i + 1) }
          ∧ t.jtTarget m.toNat = some (BitVec.ofNat 16 (i + 1)) ∧ t.jtTarget i = some (m + 1#16)
          ∧ ∀ k, k ≠ m.toNat → k ≠ i → t.jtTarget k = s.jtTarget k)
      ∧ (s.progByte i = some 0x5D#8 → s.stk = [] →
        step s = .next { s with phase := .faulted, cause := .unbalancedClose })
      ∧ (∀ b, s.progByte i = some b → b ≠ 0x5B#8 → b ≠ 0x5D#8 →
        step s = .next { s with loader := .scan (i + 1) }))
    ∧ (s.progLen.toNat ≤ i → s.stk ≠ [] →
      step s = .next { s with phase := .faulted, cause := .unbalancedOpen })

/-- R158: the scan that ends without a fault enters the run phase, with the engine at its start and the jump
table complete. -/
def Obligations.ScanEndEntersTheRunPhase : Prop :=
  ∀ (s : State) (i : Nat), s.Inv → s.rst = false → s.phase = .load → s.loader = .scan i →
    s.progLen.toNat ≤ i → s.stk = [] →
    ∃ t, step s = .next t ∧ t = { s with phase := .run } ∧ t.running ∧ t.pc = 0#16 ∧ t.dp = 0#16
      ∧ (∀ a, t.cell a = 0#8) ∧ t.stk = []
      ∧ (∀ m, m < t.progLen.toNat → t.progByte m = some 0x5B#8 → ∃ j, t.paired m j)
      ∧ (∀ j, j < t.progLen.toNat → t.progByte j = some 0x5D#8 → ∃ m, t.paired m j)
      ∧ (∀ k target, t.jtTarget k = some target → ∃ j, t.paired k j ∨ t.paired j k)

/-- R153: a longer source is cut at `PROG_CAP` bytes without an error and the rest is never taken, however many
steps follow without reset; the cut of a balanced text never closes more brackets than it opens. -/
def Obligations.LongSourceIsTruncated : Prop :=
  (∀ (p : Params) (bs : List Byte), p.wf = true → p.progCap ≤ bs.length →
    ∃ k t, runSteps k (bootState p bs) = .next t ∧ t.phase = .load ∧ t.loader = .scan 0
      ∧ t.progLen.toNat = p.progCap ∧ (∀ a, a < p.progCap → t.progByte a = bs[a]?)
      ∧ t.loadPort = (bs.drop p.progCap).map LoadEvent.byte ++ [LoadEvent.ended]
      ∧ ∀ n u, runSteps n t = .next u → u.loadPort = t.loadPort)
  ∧ (∀ (bs : List Byte) (n : Nat), Program.wf bs = true → bracketDepth (bs.take n) 0 ≠ none)

/-- R70 with R132, R133, R137, R153 and R158: from reset, the load of any source ends, in RUN exactly when the text kept is balanced,
with that text in program memory and the engine at its start; otherwise in UNBALANCED_CLOSE when some `]`
closes nothing, else in UNBALANCED_OPEN. -/
def Obligations.LoadSucceedsExactlyWhenBalanced : Prop :=
  ∀ (p : Params) (bs : List Byte), p.wf = true →
    ∃ k t, runSteps k (bootState p bs) = .next t
      ∧ (t.phase = .run ↔ Program.loadable p.progCap bs = true)
      ∧ (t.phase = .run → t.pc = 0#16 ∧ t.dp = 0#16 ∧ (∀ a, t.cell a = 0#8) ∧ t.stk = []
          ∧ t.progLen.toNat = (bs.take p.progCap).length
          ∧ ∀ a, a < (bs.take p.progCap).length → t.progByte a = (bs.take p.progCap)[a]?)
      ∧ (Program.loadable p.progCap bs = false → t.phase = .faulted
          ∧ t.cause = if bracketDepth (bs.take p.progCap) 0 = none then .unbalancedClose
              else .unbalancedOpen)

/-- R27: after a successful load the jump table has two entries for every matched pair and no other; every
bracket of the text kept (R153) has one, and no other position. -/
def Obligations.LoadedJumpTableIsComplete : Prop :=
  ∀ (p : Params) (bs : List Byte), p.wf = true → Program.loadable p.progCap bs = true →
    ∃ k t, runSteps k (bootState p bs) = .next t ∧ t.phase = .run
      ∧ (∀ m, (bs.take p.progCap)[m]? = some 0x5B#8 → ∃ j, t.paired m j)
      ∧ (∀ j, (bs.take p.progCap)[j]? = some 0x5D#8 → ∃ m, t.paired m j)
      ∧ (∀ k, t.jtTarget k ≠ none ↔
          (bs.take p.progCap)[k]? = some 0x5B#8 ∨ (bs.take p.progCap)[k]? = some 0x5D#8)

/-- R16, R70, R155: the pairs the loader makes are the matching brackets: in the text kept (R153), what stands
between the two brackets of a pair is balanced. -/
def Obligations.LoadedPairsEncloseBalancedText : Prop :=
  ∀ (p : Params) (bs : List Byte), p.wf = true → Program.loadable p.progCap bs = true →
    ∃ k t, runSteps k (bootState p bs) = .next t ∧ t.phase = .run
      ∧ ∀ m j, t.paired m j →
        Program.wf (((bs.take p.progCap).drop (m + 1)).take (j - (m + 1))) = true

/-- R114: the targets of a matched pair, and that every target is in `[1, PROG_LEN]`. -/
def Obligations.JumpTargetsStayInTheProgram : Prop :=
  ∀ s : State, s.Inv → s.phase = .run →
    (∀ m j, s.paired m j → j < s.progLen.toNat
      ∧ (∃ u, s.jtTarget m = some u ∧ u.toNat = j + 1 ∧ 2 ≤ u.toNat ∧ u.toNat ≤ s.progLen.toNat)
      ∧ (∃ v, s.jtTarget j = some v ∧ v.toNat = m + 1 ∧ 1 ≤ v.toNat ∧ v.toNat ≤ s.progLen.toNat - 1))
    ∧ (∀ k target, s.jtTarget k = some target → 1 ≤ target.toNat ∧ target.toNat ≤ s.progLen.toNat)

/-! ## The invariant -/

/-- The invariant holds right after reset, also with a host that offers a program. -/
def Obligations.InvariantHoldsAtReset : Prop :=
  State.reset.Inv ∧ ∀ (p : Params) (bs : List Byte), p.wf = true → (bootState p bs).Inv

/-- Every step keeps the invariant. -/
def Obligations.EveryStepKeepsTheInvariant : Prop :=
  ∀ s t : State, s.Inv → step s = .next t → t.Inv

/-- Every move of the host keeps the invariant. -/
def Obligations.EveryHostMoveKeepsTheInvariant : Prop :=
  ∀ (s : State) (m : HostMove), s.Inv → (hostMove m s).Inv

/-- R81, R41, R42, R66: from a state of the invariant the model never stops: a step answers a next state. -/
def Obligations.StepNeverStopsUnderTheInvariant : Prop :=
  ∀ s : State, s.Inv → ∃ t, step s = .next t

/-- R113, R134, R147: whatever the host does and whatever program it loads, no run from reset stops the
model, leaves the invariant or raises JT_MISS. -/
def Obligations.EveryRunFromResetIsSafe : Prop :=
  ∀ evs : List Event, ∃ t, runEvents evs State.reset = .next t ∧ t.Inv ∧ t.cause ≠ .jtMiss

/-! ## The host's word -/

/-- Log entry 9: the word placed for the next fetch is the instruction the next step runs. -/
def Obligations.PlacedWordIsTheNextInstruction : Prop :=
  ∀ (s : State) (w : Nat), s.pc.toNat < 65535 →
    ∃ i, decodeTableWord 8 w = some i
      ∧ step (s.withFetchWord 8 w)
        = exec i { s.withFetchWord 8 w with pc := (s.withFetchWord 8 w).pc + 1#16 }
end

