-- ==== Sys2Proof/Laws/Decode.lean ====
section
/-! SUPPORT. Decode.lean: the small laws of the decoder and the encoder (spec/30_encoding.md R63 to R66). -/

namespace Sys2Proof

/-- A NOP is well formed exactly when its byte is none of the eight (R64). -/
theorem nop_wf_iff {b : Byte} : (Instr.nop b).wf = true ↔ b ∉ opcodeBytes := by
  simp [Instr.wf]

/-- Every byte that is none of the eight decodes to the NOP of that byte (R64). -/
theorem decode_of_notMem {b : Byte} (h : b ∉ opcodeBytes) : decode b = .nop b := by
  simp only [opcodeBytes, List.mem_cons, List.not_mem_nil, not_or, not_false_eq_true, and_true] at h
  simp [decode, h]

/-- Each opcode byte decodes to an instruction whose byte it is (R63). -/
theorem encodeByte_decode_of_mem {b : Byte} (h : b ∈ opcodeBytes) :
    encodeByte (decode b) = b ∧ (decode b).wf = true := by
  simp only [opcodeBytes, List.mem_cons, List.not_mem_nil, or_false] at h
  rcases h with rfl | rfl | rfl | rfl | rfl | rfl | rfl | rfl <;> decide

/-- The byte of the instruction a byte decodes to is that byte (R65, R69). -/
theorem encodeByte_decode (b : Byte) : encodeByte (decode b) = b := by
  by_cases h : b ∈ opcodeBytes
  · exact (encodeByte_decode_of_mem h).1
  · rw [decode_of_notMem h]; rfl

/-- Whatever the decoder gives is well formed (R65, R66). -/
theorem decode_wf (b : Byte) : (decode b).wf = true := by
  by_cases h : b ∈ opcodeBytes
  · exact (encodeByte_decode_of_mem h).2
  · rw [decode_of_notMem h]; exact nop_wf_iff.2 h

@[simp] theorem decodeBytes_cons (b : Byte) (rest : List Byte) :
    decodeBytes (b :: rest) = .instr (decode b) rest := rfl

@[simp] theorem encodeProgram_cons (i : Instr) (is : List Instr) :
    encodeProgram (i :: is) = encodeByte i :: encodeProgram is := rfl

end Sys2Proof
end

