-- ==== Sys2Proof/Laws/Memory.lean ====
section
/-! SUPPORT. Memory.lean: the laws of the keyed lists and of the tape: a read after a write, the canonical
form kept, and equal reads of canonical memories are equal memories. -/

namespace Sys2Proof.Machine

variable {β : Type}

/-! ## Keyed lists -/

theorem Sparse.lookup_put_same (l : List (Nat × β)) (a : Nat) (v : β) :
    Sparse.lookup (Sparse.put l a v) a = some v := by
  induction l with
  | nil => simp [Sparse.put, Sparse.lookup]
  | cons c rest ih =>
    obtain ⟨k, u⟩ := c
    simp only [Sparse.put]
    split
    · simp [Sparse.lookup]
    · split
      · simp [Sparse.lookup]
      · simp [Sparse.lookup, ih, show ¬ k = a by omega]

theorem Sparse.lookup_put_other (l : List (Nat × β)) {a b : Nat} (v : β) (h : b ≠ a) :
    Sparse.lookup (Sparse.put l a v) b = Sparse.lookup l b := by
  induction l with
  | nil => simp [Sparse.put, Sparse.lookup, Ne.symm h]
  | cons c rest ih =>
    obtain ⟨k, u⟩ := c
    simp only [Sparse.put]
    split
    · simp [Sparse.lookup, Ne.symm h]
    · split
      · subst_vars; simp [Sparse.lookup, Ne.symm h]
      · simp [Sparse.lookup, ih]

/-- What a key reads as after one key was written. -/
theorem Sparse.lookup_put (l : List (Nat × β)) (a b : Nat) (v : β) :
    Sparse.lookup (Sparse.put l a v) b = if b = a then some v else Sparse.lookup l b := by
  split
  · subst_vars; exact Sparse.lookup_put_same l _ v
  · exact Sparse.lookup_put_other l v ‹_›

theorem Sparse.mem_of_lookup {l : List (Nat × β)} {a : Nat} {v : β}
    (h : Sparse.lookup l a = some v) : (a, v) ∈ l := by
  induction l with
  | nil => simp [Sparse.lookup] at h
  | cons c rest ih =>
    obtain ⟨k, u⟩ := c
    simp only [Sparse.lookup] at h
    split at h
    · simp_all
    · exact List.mem_cons_of_mem _ (ih h)

/-- A key below every listed key reads as unlisted. -/
theorem Sparse.lookup_of_all_lt {l : List (Nat × β)} {a : Nat} (h : ∀ c ∈ l, a < c.1) :
    Sparse.lookup l a = none := by
  induction l with
  | nil => rfl
  | cons c rest ih =>
    obtain ⟨k, u⟩ := c
    have hk : a < k := h (k, u) (by simp)
    simp only [Sparse.lookup, if_neg (show ¬ k = a by omega)]
    exact ih fun c hc => h c (List.mem_cons_of_mem _ hc)

theorem Sparse.rising_cons {k : Nat} {u : β} {rest : List (Nat × β)} :
    Sparse.rising ((k, u) :: rest) = true ↔ (∀ c ∈ rest, k < c.1) ∧ Sparse.rising rest = true := by
  simp [Sparse.rising]

theorem Sparse.mem_put {l : List (Nat × β)} {a : Nat} {v : β} {c : Nat × β}
    (h : c ∈ Sparse.put l a v) : c = (a, v) ∨ c ∈ l := by
  induction l with
  | nil => simpa [Sparse.put] using h
  | cons d rest ih =>
    obtain ⟨k, u⟩ := d
    simp only [Sparse.put] at h
    split at h
    · simpa using h
    · split at h
      · rcases List.mem_cons.1 h with h | h <;> simp [h]
      · rcases List.mem_cons.1 h with h | h
        · simp [h]
        · rcases ih h with h | h <;> simp [h]

theorem Sparse.mem_erase {l : List (Nat × β)} {a : Nat} {c : Nat × β}
    (h : c ∈ Sparse.erase l a) : c ∈ l := by
  induction l with
  | nil => simp [Sparse.erase] at h
  | cons d rest ih =>
    obtain ⟨k, u⟩ := d
    simp only [Sparse.erase] at h
    split at h
    · simp [h]
    · rcases List.mem_cons.1 h with h | h
      · simp [h]
      · simp [ih h]

theorem Sparse.rising_put {l : List (Nat × β)} (a : Nat) (v : β) (h : Sparse.rising l = true) :
    Sparse.rising (Sparse.put l a v) = true := by
  induction l with
  | nil => simp [Sparse.put, Sparse.rising]
  | cons d rest ih =>
    obtain ⟨k, u⟩ := d
    obtain ⟨hk, hr⟩ := Sparse.rising_cons.1 h
    simp only [Sparse.put]
    split
    · refine Sparse.rising_cons.2 ⟨fun c hc => ?_, h⟩
      rcases List.mem_cons.1 hc with rfl | hc
      · assumption
      · have := hk c hc; omega
    · split
      · subst_vars; exact Sparse.rising_cons.2 ⟨hk, hr⟩
      · refine Sparse.rising_cons.2 ⟨fun c hc => ?_, ih hr⟩
        rcases Sparse.mem_put hc with rfl | hc
        · show k < a; omega
        · exact hk c hc

theorem Sparse.rising_erase {l : List (Nat × β)} (a : Nat) (h : Sparse.rising l = true) :
    Sparse.rising (Sparse.erase l a) = true := by
  induction l with
  | nil => rfl
  | cons d rest ih =>
    obtain ⟨k, u⟩ := d
    obtain ⟨hk, hr⟩ := Sparse.rising_cons.1 h
    simp only [Sparse.erase]
    split
    · exact hr
    · exact Sparse.rising_cons.2 ⟨fun c hc => hk c (Sparse.mem_erase hc), ih hr⟩

/-- What a key of a rising list reads as after one key was taken off. -/
theorem Sparse.lookup_erase {l : List (Nat × β)} (a b : Nat) (h : Sparse.rising l = true) :
    Sparse.lookup (Sparse.erase l a) b = if b = a then none else Sparse.lookup l b := by
  induction l with
  | nil => simp [Sparse.erase, Sparse.lookup]
  | cons d rest ih =>
    obtain ⟨k, u⟩ := d
    obtain ⟨hk, hr⟩ := Sparse.rising_cons.1 h
    simp only [Sparse.erase]
    by_cases hka : k = a
    · subst hka
      rw [if_pos rfl]
      by_cases hb : b = k
      · subst hb; rw [if_pos rfl]; exact Sparse.lookup_of_all_lt hk
      · simp [Sparse.lookup, hb, Ne.symm hb]
    · rw [if_neg hka]
      by_cases hb : k = b
      · subst hb; simp [Sparse.lookup, hka]
      · simp [Sparse.lookup, hb, ih hr]

/-- Another key reads as before, also where the list does not rise. -/
theorem Sparse.lookup_erase_other (l : List (Nat × β)) {a b : Nat} (h : b ≠ a) :
    Sparse.lookup (Sparse.erase l a) b = Sparse.lookup l b := by
  induction l with
  | nil => rfl
  | cons d rest ih =>
    obtain ⟨k, u⟩ := d
    simp only [Sparse.erase]
    split
    · subst_vars; simp [Sparse.lookup, Ne.symm h]
    · simp [Sparse.lookup, ih]

/-- A rising list is known by its lookups. -/
theorem Sparse.ext_of_rising {l m : List (Nat × β)} (hl : Sparse.rising l = true)
    (hm : Sparse.rising m = true) (h : ∀ a, Sparse.lookup l a = Sparse.lookup m a) : l = m := by
  induction l generalizing m with
  | nil =>
    cases m with
    | nil => rfl
    | cons d rest => have := h d.1; simp [Sparse.lookup] at this
  | cons c rest ih =>
    obtain ⟨k, u⟩ := c
    obtain ⟨hk, hr⟩ := Sparse.rising_cons.1 hl
    cases m with
    | nil => have := h k; simp [Sparse.lookup] at this
    | cons d rest' =>
      obtain ⟨k', u'⟩ := d
      obtain ⟨hk', hr'⟩ := Sparse.rising_cons.1 hm
      have hkk : k = k' := by
        rcases Nat.lt_trichotomy k k' with hlt | heq | hlt
        · have := h k
          rw [Sparse.lookup, if_pos rfl, Sparse.lookup, if_neg (by omega),
            Sparse.lookup_of_all_lt fun c hc => Nat.lt_trans hlt (hk' c hc)] at this
          simp at this
        · exact heq
        · have := h k'
          rw [Sparse.lookup, if_neg (by omega), Sparse.lookup, if_pos rfl,
            Sparse.lookup_of_all_lt fun c hc => Nat.lt_trans hlt (hk c hc)] at this
          simp at this
      subst hkk
      have huu : u = u' := by simpa [Sparse.lookup] using h k
      subst huu
      congr 1
      refine ih hr hr' fun a => ?_
      by_cases ha : a = k
      · subst ha; rw [Sparse.lookup_of_all_lt hk, Sparse.lookup_of_all_lt hk']
      · simpa [Sparse.lookup, Ne.symm ha] using h a

/-! ## The tape -/

theorem Memory.wf_iff {m : Memory} :
    Memory.wf m = true ↔ Sparse.rising m = true ∧ ∀ c ∈ m, c.2 ≠ Memory.unlisted := by
  simp [Memory.wf, List.all_eq_true]

/-- What a tape address reads as after one cell was written. -/
theorem Memory.read_write {m : Memory} (h : Memory.wf m = true) (a b : Nat) (v : Byte) :
    Memory.read (Memory.write m a v) b = if b = a then v else Memory.read m b := by
  unfold Memory.read Memory.write
  split
  · subst_vars
    rw [Sparse.lookup_erase a b (Memory.wf_iff.1 h).1]
    split <;> simp
  · rw [Sparse.lookup_put]
    split <;> simp

theorem Memory.read_write_same {m : Memory} (h : Memory.wf m = true) (a : Nat) (v : Byte) :
    Memory.read (Memory.write m a v) a = v := by rw [Memory.read_write h, if_pos rfl]

/-- A write leaves every other cell alone, in whatever form the memory is. -/
theorem Memory.read_write_other (m : Memory) {a b : Nat} (v : Byte) (h : b ≠ a) :
    Memory.read (Memory.write m a v) b = Memory.read m b := by
  unfold Memory.read Memory.write
  split
  · rw [Sparse.lookup_erase_other _ h]
  · rw [Sparse.lookup_put_other _ _ h]

/-- A write keeps the canonical form. -/
theorem Memory.wf_write {m : Memory} (h : Memory.wf m = true) (a : Nat) (v : Byte) :
    Memory.wf (Memory.write m a v) = true := by
  obtain ⟨hr, hv⟩ := Memory.wf_iff.1 h
  unfold Memory.write
  split
  · exact Memory.wf_iff.2 ⟨Sparse.rising_erase a hr, fun c hc => hv c (Sparse.mem_erase hc)⟩
  · refine Memory.wf_iff.2 ⟨Sparse.rising_put a v hr, fun c hc => ?_⟩
    rcases Sparse.mem_put hc with rfl | hc
    · assumption
    · exact hv c hc

/-- A write lists no address but its own. -/
theorem Memory.mem_write {m : Memory} {a : Nat} {v : Byte} {c : Host.Cell}
    (h : c ∈ Memory.write m a v) : c.1 = a ∨ c ∈ m := by
  unfold Memory.write at h
  split at h
  · exact .inr (Sparse.mem_erase h)
  · rcases Sparse.mem_put h with rfl | h
    · exact .inl rfl
    · exact .inr h

/-- Canonical memories that read the same everywhere are the same data. -/
theorem Memory.ext_of_wf {m n : Memory} (hm : Memory.wf m = true) (hn : Memory.wf n = true)
    (h : ∀ a, Memory.read m a = Memory.read n a) : m = n := by
  obtain ⟨hrm, hvm⟩ := Memory.wf_iff.1 hm
  obtain ⟨hrn, hvn⟩ := Memory.wf_iff.1 hn
  refine Sparse.ext_of_rising hrm hrn fun a => ?_
  have ha := h a
  unfold Memory.read at ha
  cases hl : Sparse.lookup m a with
  | none =>
    cases hk : Sparse.lookup n a with
    | none => rfl
    | some v =>
      rw [hl, hk] at ha
      exact absurd ha.symm (hvn _ (Sparse.mem_of_lookup hk))
  | some u =>
    cases hk : Sparse.lookup n a with
    | none =>
      rw [hl, hk] at ha
      exact absurd ha (hvm _ (Sparse.mem_of_lookup hl))
    | some v => rw [hl, hk] at ha; simpa using ha

/-- The empty memory is canonical and reads as unlisted everywhere. -/
theorem Memory.wf_nil : Memory.wf [] = true := rfl

theorem Memory.read_nil (a : Nat) : Memory.read [] a = 0#8 := rfl

end Sys2Proof.Machine
end

