-- ==== Sys2Proof/Laws/State.lean ====
section
/-! SUPPORT. State.lean: what each named update of the state leaves in each field, and what the reads of the
memories and of `STATUS` see of it. -/

namespace Sys2Proof.Machine

variable (s : State)

@[simp] theorem State.setStatus_params (p : Phase) (c : Cause) : (s.setStatus p c).params = s.params := rfl
@[simp] theorem State.setStatus_phase (p : Phase) (c : Cause) : (s.setStatus p c).phase = p := rfl
@[simp] theorem State.setStatus_cause (p : Phase) (c : Cause) : (s.setStatus p c).cause = c := rfl
@[simp] theorem State.setStatus_pc (p : Phase) (c : Cause) : (s.setStatus p c).pc = s.pc := rfl
@[simp] theorem State.setStatus_dp (p : Phase) (c : Cause) : (s.setStatus p c).dp = s.dp := rfl
@[simp] theorem State.setStatus_progLen (p : Phase) (c : Cause) : (s.setStatus p c).progLen = s.progLen := rfl
@[simp] theorem State.setStatus_prog (p : Phase) (c : Cause) : (s.setStatus p c).prog = s.prog := rfl
@[simp] theorem State.setStatus_tape (p : Phase) (c : Cause) : (s.setStatus p c).tape = s.tape := rfl
@[simp] theorem State.setStatus_jt (p : Phase) (c : Cause) : (s.setStatus p c).jt = s.jt := rfl
@[simp] theorem State.setStatus_stk (p : Phase) (c : Cause) : (s.setStatus p c).stk = s.stk := rfl
@[simp] theorem State.setStatus_loader (p : Phase) (c : Cause) : (s.setStatus p c).loader = s.loader := rfl
@[simp] theorem State.setStatus_hold (p : Phase) (c : Cause) : (s.setStatus p c).hold = s.hold := rfl
@[simp] theorem State.setStatus_rst (p : Phase) (c : Cause) : (s.setStatus p c).rst = s.rst := rfl
@[simp] theorem State.setStatus_loadPort (p : Phase) (c : Cause) : (s.setStatus p c).loadPort = s.loadPort := rfl
@[simp] theorem State.setStatus_inPort (p : Phase) (c : Cause) : (s.setStatus p c).inPort = s.inPort := rfl
@[simp] theorem State.setStatus_inEnded (p : Phase) (c : Cause) : (s.setStatus p c).inEnded = s.inEnded := rfl
@[simp] theorem State.setStatus_outReady (p : Phase) (c : Cause) : (s.setStatus p c).outReady = s.outReady := rfl
@[simp] theorem State.setStatus_outStream (p : Phase) (c : Cause) : (s.setStatus p c).outStream = s.outStream := rfl
@[simp] theorem State.setStatus_cell (p : Phase) (c : Cause) (a : Nat) : (s.setStatus p c).cell a = s.cell a := rfl
@[simp] theorem State.setStatus_progByte (p : Phase) (c : Cause) (a : Nat) : (s.setStatus p c).progByte a = s.progByte a := rfl
@[simp] theorem State.setStatus_jtTarget (p : Phase) (c : Cause) (a : Nat) : (s.setStatus p c).jtTarget a = s.jtTarget a := rfl

@[simp] theorem State.setPc_params (v : Word) : (s.setPc v).params = s.params := rfl
@[simp] theorem State.setPc_phase (v : Word) : (s.setPc v).phase = s.phase := rfl
@[simp] theorem State.setPc_cause (v : Word) : (s.setPc v).cause = s.cause := rfl
@[simp] theorem State.setPc_pc (v : Word) : (s.setPc v).pc = v := rfl
@[simp] theorem State.setPc_dp (v : Word) : (s.setPc v).dp = s.dp := rfl
@[simp] theorem State.setPc_progLen (v : Word) : (s.setPc v).progLen = s.progLen := rfl
@[simp] theorem State.setPc_prog (v : Word) : (s.setPc v).prog = s.prog := rfl
@[simp] theorem State.setPc_tape (v : Word) : (s.setPc v).tape = s.tape := rfl
@[simp] theorem State.setPc_jt (v : Word) : (s.setPc v).jt = s.jt := rfl
@[simp] theorem State.setPc_stk (v : Word) : (s.setPc v).stk = s.stk := rfl
@[simp] theorem State.setPc_loader (v : Word) : (s.setPc v).loader = s.loader := rfl
@[simp] theorem State.setPc_hold (v : Word) : (s.setPc v).hold = s.hold := rfl
@[simp] theorem State.setPc_rst (v : Word) : (s.setPc v).rst = s.rst := rfl
@[simp] theorem State.setPc_loadPort (v : Word) : (s.setPc v).loadPort = s.loadPort := rfl
@[simp] theorem State.setPc_inPort (v : Word) : (s.setPc v).inPort = s.inPort := rfl
@[simp] theorem State.setPc_inEnded (v : Word) : (s.setPc v).inEnded = s.inEnded := rfl
@[simp] theorem State.setPc_outReady (v : Word) : (s.setPc v).outReady = s.outReady := rfl
@[simp] theorem State.setPc_outStream (v : Word) : (s.setPc v).outStream = s.outStream := rfl
@[simp] theorem State.setPc_cell (v : Word) (a : Nat) : (s.setPc v).cell a = s.cell a := rfl
@[simp] theorem State.setPc_progByte (v : Word) (a : Nat) : (s.setPc v).progByte a = s.progByte a := rfl
@[simp] theorem State.setPc_jtTarget (v : Word) (a : Nat) : (s.setPc v).jtTarget a = s.jtTarget a := rfl

@[simp] theorem State.setDp_params (v : Word) : (s.setDp v).params = s.params := rfl
@[simp] theorem State.setDp_phase (v : Word) : (s.setDp v).phase = s.phase := rfl
@[simp] theorem State.setDp_cause (v : Word) : (s.setDp v).cause = s.cause := rfl
@[simp] theorem State.setDp_pc (v : Word) : (s.setDp v).pc = s.pc := rfl
@[simp] theorem State.setDp_dp (v : Word) : (s.setDp v).dp = v := rfl
@[simp] theorem State.setDp_progLen (v : Word) : (s.setDp v).progLen = s.progLen := rfl
@[simp] theorem State.setDp_prog (v : Word) : (s.setDp v).prog = s.prog := rfl
@[simp] theorem State.setDp_tape (v : Word) : (s.setDp v).tape = s.tape := rfl
@[simp] theorem State.setDp_jt (v : Word) : (s.setDp v).jt = s.jt := rfl
@[simp] theorem State.setDp_stk (v : Word) : (s.setDp v).stk = s.stk := rfl
@[simp] theorem State.setDp_loader (v : Word) : (s.setDp v).loader = s.loader := rfl
@[simp] theorem State.setDp_hold (v : Word) : (s.setDp v).hold = s.hold := rfl
@[simp] theorem State.setDp_rst (v : Word) : (s.setDp v).rst = s.rst := rfl
@[simp] theorem State.setDp_loadPort (v : Word) : (s.setDp v).loadPort = s.loadPort := rfl
@[simp] theorem State.setDp_inPort (v : Word) : (s.setDp v).inPort = s.inPort := rfl
@[simp] theorem State.setDp_inEnded (v : Word) : (s.setDp v).inEnded = s.inEnded := rfl
@[simp] theorem State.setDp_outReady (v : Word) : (s.setDp v).outReady = s.outReady := rfl
@[simp] theorem State.setDp_outStream (v : Word) : (s.setDp v).outStream = s.outStream := rfl
@[simp] theorem State.setDp_cell (v : Word) (a : Nat) : (s.setDp v).cell a = s.cell a := rfl
@[simp] theorem State.setDp_progByte (v : Word) (a : Nat) : (s.setDp v).progByte a = s.progByte a := rfl
@[simp] theorem State.setDp_jtTarget (v : Word) (a : Nat) : (s.setDp v).jtTarget a = s.jtTarget a := rfl

@[simp] theorem State.setProgLen_params (v : Word) : (s.setProgLen v).params = s.params := rfl
@[simp] theorem State.setProgLen_phase (v : Word) : (s.setProgLen v).phase = s.phase := rfl
@[simp] theorem State.setProgLen_cause (v : Word) : (s.setProgLen v).cause = s.cause := rfl
@[simp] theorem State.setProgLen_pc (v : Word) : (s.setProgLen v).pc = s.pc := rfl
@[simp] theorem State.setProgLen_dp (v : Word) : (s.setProgLen v).dp = s.dp := rfl
@[simp] theorem State.setProgLen_progLen (v : Word) : (s.setProgLen v).progLen = v := rfl
@[simp] theorem State.setProgLen_prog (v : Word) : (s.setProgLen v).prog = s.prog := rfl
@[simp] theorem State.setProgLen_tape (v : Word) : (s.setProgLen v).tape = s.tape := rfl
@[simp] theorem State.setProgLen_jt (v : Word) : (s.setProgLen v).jt = s.jt := rfl
@[simp] theorem State.setProgLen_stk (v : Word) : (s.setProgLen v).stk = s.stk := rfl
@[simp] theorem State.setProgLen_loader (v : Word) : (s.setProgLen v).loader = s.loader := rfl
@[simp] theorem State.setProgLen_hold (v : Word) : (s.setProgLen v).hold = s.hold := rfl
@[simp] theorem State.setProgLen_rst (v : Word) : (s.setProgLen v).rst = s.rst := rfl
@[simp] theorem State.setProgLen_loadPort (v : Word) : (s.setProgLen v).loadPort = s.loadPort := rfl
@[simp] theorem State.setProgLen_inPort (v : Word) : (s.setProgLen v).inPort = s.inPort := rfl
@[simp] theorem State.setProgLen_inEnded (v : Word) : (s.setProgLen v).inEnded = s.inEnded := rfl
@[simp] theorem State.setProgLen_outReady (v : Word) : (s.setProgLen v).outReady = s.outReady := rfl
@[simp] theorem State.setProgLen_outStream (v : Word) : (s.setProgLen v).outStream = s.outStream := rfl
@[simp] theorem State.setProgLen_cell (v : Word) (a : Nat) : (s.setProgLen v).cell a = s.cell a := rfl
@[simp] theorem State.setProgLen_progByte (v : Word) (a : Nat) : (s.setProgLen v).progByte a = s.progByte a := rfl
@[simp] theorem State.setProgLen_jtTarget (v : Word) (a : Nat) : (s.setProgLen v).jtTarget a = s.jtTarget a := rfl

@[simp] theorem State.setProg_params (v : Memory) : (s.setProg v).params = s.params := rfl
@[simp] theorem State.setProg_phase (v : Memory) : (s.setProg v).phase = s.phase := rfl
@[simp] theorem State.setProg_cause (v : Memory) : (s.setProg v).cause = s.cause := rfl
@[simp] theorem State.setProg_pc (v : Memory) : (s.setProg v).pc = s.pc := rfl
@[simp] theorem State.setProg_dp (v : Memory) : (s.setProg v).dp = s.dp := rfl
@[simp] theorem State.setProg_progLen (v : Memory) : (s.setProg v).progLen = s.progLen := rfl
@[simp] theorem State.setProg_prog (v : Memory) : (s.setProg v).prog = v := rfl
@[simp] theorem State.setProg_tape (v : Memory) : (s.setProg v).tape = s.tape := rfl
@[simp] theorem State.setProg_jt (v : Memory) : (s.setProg v).jt = s.jt := rfl
@[simp] theorem State.setProg_stk (v : Memory) : (s.setProg v).stk = s.stk := rfl
@[simp] theorem State.setProg_loader (v : Memory) : (s.setProg v).loader = s.loader := rfl
@[simp] theorem State.setProg_hold (v : Memory) : (s.setProg v).hold = s.hold := rfl
@[simp] theorem State.setProg_rst (v : Memory) : (s.setProg v).rst = s.rst := rfl
@[simp] theorem State.setProg_loadPort (v : Memory) : (s.setProg v).loadPort = s.loadPort := rfl
@[simp] theorem State.setProg_inPort (v : Memory) : (s.setProg v).inPort = s.inPort := rfl
@[simp] theorem State.setProg_inEnded (v : Memory) : (s.setProg v).inEnded = s.inEnded := rfl
@[simp] theorem State.setProg_outReady (v : Memory) : (s.setProg v).outReady = s.outReady := rfl
@[simp] theorem State.setProg_outStream (v : Memory) : (s.setProg v).outStream = s.outStream := rfl
@[simp] theorem State.setProg_cell (v : Memory) (a : Nat) : (s.setProg v).cell a = s.cell a := rfl
@[simp] theorem State.setProg_jtTarget (v : Memory) (a : Nat) : (s.setProg v).jtTarget a = s.jtTarget a := rfl

@[simp] theorem State.setTape_params (v : Memory) : (s.setTape v).params = s.params := rfl
@[simp] theorem State.setTape_phase (v : Memory) : (s.setTape v).phase = s.phase := rfl
@[simp] theorem State.setTape_cause (v : Memory) : (s.setTape v).cause = s.cause := rfl
@[simp] theorem State.setTape_pc (v : Memory) : (s.setTape v).pc = s.pc := rfl
@[simp] theorem State.setTape_dp (v : Memory) : (s.setTape v).dp = s.dp := rfl
@[simp] theorem State.setTape_progLen (v : Memory) : (s.setTape v).progLen = s.progLen := rfl
@[simp] theorem State.setTape_prog (v : Memory) : (s.setTape v).prog = s.prog := rfl
@[simp] theorem State.setTape_tape (v : Memory) : (s.setTape v).tape = v := rfl
@[simp] theorem State.setTape_jt (v : Memory) : (s.setTape v).jt = s.jt := rfl
@[simp] theorem State.setTape_stk (v : Memory) : (s.setTape v).stk = s.stk := rfl
@[simp] theorem State.setTape_loader (v : Memory) : (s.setTape v).loader = s.loader := rfl
@[simp] theorem State.setTape_hold (v : Memory) : (s.setTape v).hold = s.hold := rfl
@[simp] theorem State.setTape_rst (v : Memory) : (s.setTape v).rst = s.rst := rfl
@[simp] theorem State.setTape_loadPort (v : Memory) : (s.setTape v).loadPort = s.loadPort := rfl
@[simp] theorem State.setTape_inPort (v : Memory) : (s.setTape v).inPort = s.inPort := rfl
@[simp] theorem State.setTape_inEnded (v : Memory) : (s.setTape v).inEnded = s.inEnded := rfl
@[simp] theorem State.setTape_outReady (v : Memory) : (s.setTape v).outReady = s.outReady := rfl
@[simp] theorem State.setTape_outStream (v : Memory) : (s.setTape v).outStream = s.outStream := rfl
@[simp] theorem State.setTape_progByte (v : Memory) (a : Nat) : (s.setTape v).progByte a = s.progByte a := rfl
@[simp] theorem State.setTape_jtTarget (v : Memory) (a : Nat) : (s.setTape v).jtTarget a = s.jtTarget a := rfl

@[simp] theorem State.setJt_params (v : JumpTable) : (s.setJt v).params = s.params := rfl
@[simp] theorem State.setJt_phase (v : JumpTable) : (s.setJt v).phase = s.phase := rfl
@[simp] theorem State.setJt_cause (v : JumpTable) : (s.setJt v).cause = s.cause := rfl
@[simp] theorem State.setJt_pc (v : JumpTable) : (s.setJt v).pc = s.pc := rfl
@[simp] theorem State.setJt_dp (v : JumpTable) : (s.setJt v).dp = s.dp := rfl
@[simp] theorem State.setJt_progLen (v : JumpTable) : (s.setJt v).progLen = s.progLen := rfl
@[simp] theorem State.setJt_prog (v : JumpTable) : (s.setJt v).prog = s.prog := rfl
@[simp] theorem State.setJt_tape (v : JumpTable) : (s.setJt v).tape = s.tape := rfl
@[simp] theorem State.setJt_jt (v : JumpTable) : (s.setJt v).jt = v := rfl
@[simp] theorem State.setJt_stk (v : JumpTable) : (s.setJt v).stk = s.stk := rfl
@[simp] theorem State.setJt_loader (v : JumpTable) : (s.setJt v).loader = s.loader := rfl
@[simp] theorem State.setJt_hold (v : JumpTable) : (s.setJt v).hold = s.hold := rfl
@[simp] theorem State.setJt_rst (v : JumpTable) : (s.setJt v).rst = s.rst := rfl
@[simp] theorem State.setJt_loadPort (v : JumpTable) : (s.setJt v).loadPort = s.loadPort := rfl
@[simp] theorem State.setJt_inPort (v : JumpTable) : (s.setJt v).inPort = s.inPort := rfl
@[simp] theorem State.setJt_inEnded (v : JumpTable) : (s.setJt v).inEnded = s.inEnded := rfl
@[simp] theorem State.setJt_outReady (v : JumpTable) : (s.setJt v).outReady = s.outReady := rfl
@[simp] theorem State.setJt_outStream (v : JumpTable) : (s.setJt v).outStream = s.outStream := rfl
@[simp] theorem State.setJt_cell (v : JumpTable) (a : Nat) : (s.setJt v).cell a = s.cell a := rfl
@[simp] theorem State.setJt_progByte (v : JumpTable) (a : Nat) : (s.setJt v).progByte a = s.progByte a := rfl

@[simp] theorem State.setStk_params (v : List Word) : (s.setStk v).params = s.params := rfl
@[simp] theorem State.setStk_phase (v : List Word) : (s.setStk v).phase = s.phase := rfl
@[simp] theorem State.setStk_cause (v : List Word) : (s.setStk v).cause = s.cause := rfl
@[simp] theorem State.setStk_pc (v : List Word) : (s.setStk v).pc = s.pc := rfl
@[simp] theorem State.setStk_dp (v : List Word) : (s.setStk v).dp = s.dp := rfl
@[simp] theorem State.setStk_progLen (v : List Word) : (s.setStk v).progLen = s.progLen := rfl
@[simp] theorem State.setStk_prog (v : List Word) : (s.setStk v).prog = s.prog := rfl
@[simp] theorem State.setStk_tape (v : List Word) : (s.setStk v).tape = s.tape := rfl
@[simp] theorem State.setStk_jt (v : List Word) : (s.setStk v).jt = s.jt := rfl
@[simp] theorem State.setStk_stk (v : List Word) : (s.setStk v).stk = v := rfl
@[simp] theorem State.setStk_loader (v : List Word) : (s.setStk v).loader = s.loader := rfl
@[simp] theorem State.setStk_hold (v : List Word) : (s.setStk v).hold = s.hold := rfl
@[simp] theorem State.setStk_rst (v : List Word) : (s.setStk v).rst = s.rst := rfl
@[simp] theorem State.setStk_loadPort (v : List Word) : (s.setStk v).loadPort = s.loadPort := rfl
@[simp] theorem State.setStk_inPort (v : List Word) : (s.setStk v).inPort = s.inPort := rfl
@[simp] theorem State.setStk_inEnded (v : List Word) : (s.setStk v).inEnded = s.inEnded := rfl
@[simp] theorem State.setStk_outReady (v : List Word) : (s.setStk v).outReady = s.outReady := rfl
@[simp] theorem State.setStk_outStream (v : List Word) : (s.setStk v).outStream = s.outStream := rfl
@[simp] theorem State.setStk_cell (v : List Word) (a : Nat) : (s.setStk v).cell a = s.cell a := rfl
@[simp] theorem State.setStk_progByte (v : List Word) (a : Nat) : (s.setStk v).progByte a = s.progByte a := rfl
@[simp] theorem State.setStk_jtTarget (v : List Word) (a : Nat) : (s.setStk v).jtTarget a = s.jtTarget a := rfl

@[simp] theorem State.setLoader_params (v : Loader) : (s.setLoader v).params = s.params := rfl
@[simp] theorem State.setLoader_phase (v : Loader) : (s.setLoader v).phase = s.phase := rfl
@[simp] theorem State.setLoader_cause (v : Loader) : (s.setLoader v).cause = s.cause := rfl
@[simp] theorem State.setLoader_pc (v : Loader) : (s.setLoader v).pc = s.pc := rfl
@[simp] theorem State.setLoader_dp (v : Loader) : (s.setLoader v).dp = s.dp := rfl
@[simp] theorem State.setLoader_progLen (v : Loader) : (s.setLoader v).progLen = s.progLen := rfl
@[simp] theorem State.setLoader_prog (v : Loader) : (s.setLoader v).prog = s.prog := rfl
@[simp] theorem State.setLoader_tape (v : Loader) : (s.setLoader v).tape = s.tape := rfl
@[simp] theorem State.setLoader_jt (v : Loader) : (s.setLoader v).jt = s.jt := rfl
@[simp] theorem State.setLoader_stk (v : Loader) : (s.setLoader v).stk = s.stk := rfl
@[simp] theorem State.setLoader_loader (v : Loader) : (s.setLoader v).loader = v := rfl
@[simp] theorem State.setLoader_hold (v : Loader) : (s.setLoader v).hold = s.hold := rfl
@[simp] theorem State.setLoader_rst (v : Loader) : (s.setLoader v).rst = s.rst := rfl
@[simp] theorem State.setLoader_loadPort (v : Loader) : (s.setLoader v).loadPort = s.loadPort := rfl
@[simp] theorem State.setLoader_inPort (v : Loader) : (s.setLoader v).inPort = s.inPort := rfl
@[simp] theorem State.setLoader_inEnded (v : Loader) : (s.setLoader v).inEnded = s.inEnded := rfl
@[simp] theorem State.setLoader_outReady (v : Loader) : (s.setLoader v).outReady = s.outReady := rfl
@[simp] theorem State.setLoader_outStream (v : Loader) : (s.setLoader v).outStream = s.outStream := rfl
@[simp] theorem State.setLoader_cell (v : Loader) (a : Nat) : (s.setLoader v).cell a = s.cell a := rfl
@[simp] theorem State.setLoader_progByte (v : Loader) (a : Nat) : (s.setLoader v).progByte a = s.progByte a := rfl
@[simp] theorem State.setLoader_jtTarget (v : Loader) (a : Nat) : (s.setLoader v).jtTarget a = s.jtTarget a := rfl

@[simp] theorem State.setHold_params (v : Hold) : (s.setHold v).params = s.params := rfl
@[simp] theorem State.setHold_phase (v : Hold) : (s.setHold v).phase = s.phase := rfl
@[simp] theorem State.setHold_cause (v : Hold) : (s.setHold v).cause = s.cause := rfl
@[simp] theorem State.setHold_pc (v : Hold) : (s.setHold v).pc = s.pc := rfl
@[simp] theorem State.setHold_dp (v : Hold) : (s.setHold v).dp = s.dp := rfl
@[simp] theorem State.setHold_progLen (v : Hold) : (s.setHold v).progLen = s.progLen := rfl
@[simp] theorem State.setHold_prog (v : Hold) : (s.setHold v).prog = s.prog := rfl
@[simp] theorem State.setHold_tape (v : Hold) : (s.setHold v).tape = s.tape := rfl
@[simp] theorem State.setHold_jt (v : Hold) : (s.setHold v).jt = s.jt := rfl
@[simp] theorem State.setHold_stk (v : Hold) : (s.setHold v).stk = s.stk := rfl
@[simp] theorem State.setHold_loader (v : Hold) : (s.setHold v).loader = s.loader := rfl
@[simp] theorem State.setHold_hold (v : Hold) : (s.setHold v).hold = v := rfl
@[simp] theorem State.setHold_rst (v : Hold) : (s.setHold v).rst = s.rst := rfl
@[simp] theorem State.setHold_loadPort (v : Hold) : (s.setHold v).loadPort = s.loadPort := rfl
@[simp] theorem State.setHold_inPort (v : Hold) : (s.setHold v).inPort = s.inPort := rfl
@[simp] theorem State.setHold_inEnded (v : Hold) : (s.setHold v).inEnded = s.inEnded := rfl
@[simp] theorem State.setHold_outReady (v : Hold) : (s.setHold v).outReady = s.outReady := rfl
@[simp] theorem State.setHold_outStream (v : Hold) : (s.setHold v).outStream = s.outStream := rfl
@[simp] theorem State.setHold_cell (v : Hold) (a : Nat) : (s.setHold v).cell a = s.cell a := rfl
@[simp] theorem State.setHold_progByte (v : Hold) (a : Nat) : (s.setHold v).progByte a = s.progByte a := rfl
@[simp] theorem State.setHold_jtTarget (v : Hold) (a : Nat) : (s.setHold v).jtTarget a = s.jtTarget a := rfl

@[simp] theorem State.setLoadPort_params (v : List LoadEvent) : (s.setLoadPort v).params = s.params := rfl
@[simp] theorem State.setLoadPort_phase (v : List LoadEvent) : (s.setLoadPort v).phase = s.phase := rfl
@[simp] theorem State.setLoadPort_cause (v : List LoadEvent) : (s.setLoadPort v).cause = s.cause := rfl
@[simp] theorem State.setLoadPort_pc (v : List LoadEvent) : (s.setLoadPort v).pc = s.pc := rfl
@[simp] theorem State.setLoadPort_dp (v : List LoadEvent) : (s.setLoadPort v).dp = s.dp := rfl
@[simp] theorem State.setLoadPort_progLen (v : List LoadEvent) : (s.setLoadPort v).progLen = s.progLen := rfl
@[simp] theorem State.setLoadPort_prog (v : List LoadEvent) : (s.setLoadPort v).prog = s.prog := rfl
@[simp] theorem State.setLoadPort_tape (v : List LoadEvent) : (s.setLoadPort v).tape = s.tape := rfl
@[simp] theorem State.setLoadPort_jt (v : List LoadEvent) : (s.setLoadPort v).jt = s.jt := rfl
@[simp] theorem State.setLoadPort_stk (v : List LoadEvent) : (s.setLoadPort v).stk = s.stk := rfl
@[simp] theorem State.setLoadPort_loader (v : List LoadEvent) : (s.setLoadPort v).loader = s.loader := rfl
@[simp] theorem State.setLoadPort_hold (v : List LoadEvent) : (s.setLoadPort v).hold = s.hold := rfl
@[simp] theorem State.setLoadPort_rst (v : List LoadEvent) : (s.setLoadPort v).rst = s.rst := rfl
@[simp] theorem State.setLoadPort_loadPort (v : List LoadEvent) : (s.setLoadPort v).loadPort = v := rfl
@[simp] theorem State.setLoadPort_inPort (v : List LoadEvent) : (s.setLoadPort v).inPort = s.inPort := rfl
@[simp] theorem State.setLoadPort_inEnded (v : List LoadEvent) : (s.setLoadPort v).inEnded = s.inEnded := rfl
@[simp] theorem State.setLoadPort_outReady (v : List LoadEvent) : (s.setLoadPort v).outReady = s.outReady := rfl
@[simp] theorem State.setLoadPort_outStream (v : List LoadEvent) : (s.setLoadPort v).outStream = s.outStream := rfl
@[simp] theorem State.setLoadPort_cell (v : List LoadEvent) (a : Nat) : (s.setLoadPort v).cell a = s.cell a := rfl
@[simp] theorem State.setLoadPort_progByte (v : List LoadEvent) (a : Nat) : (s.setLoadPort v).progByte a = s.progByte a := rfl
@[simp] theorem State.setLoadPort_jtTarget (v : List LoadEvent) (a : Nat) : (s.setLoadPort v).jtTarget a = s.jtTarget a := rfl

@[simp] theorem State.setInPort_params (v : List Byte) : (s.setInPort v).params = s.params := rfl
@[simp] theorem State.setInPort_phase (v : List Byte) : (s.setInPort v).phase = s.phase := rfl
@[simp] theorem State.setInPort_cause (v : List Byte) : (s.setInPort v).cause = s.cause := rfl
@[simp] theorem State.setInPort_pc (v : List Byte) : (s.setInPort v).pc = s.pc := rfl
@[simp] theorem State.setInPort_dp (v : List Byte) : (s.setInPort v).dp = s.dp := rfl
@[simp] theorem State.setInPort_progLen (v : List Byte) : (s.setInPort v).progLen = s.progLen := rfl
@[simp] theorem State.setInPort_prog (v : List Byte) : (s.setInPort v).prog = s.prog := rfl
@[simp] theorem State.setInPort_tape (v : List Byte) : (s.setInPort v).tape = s.tape := rfl
@[simp] theorem State.setInPort_jt (v : List Byte) : (s.setInPort v).jt = s.jt := rfl
@[simp] theorem State.setInPort_stk (v : List Byte) : (s.setInPort v).stk = s.stk := rfl
@[simp] theorem State.setInPort_loader (v : List Byte) : (s.setInPort v).loader = s.loader := rfl
@[simp] theorem State.setInPort_hold (v : List Byte) : (s.setInPort v).hold = s.hold := rfl
@[simp] theorem State.setInPort_rst (v : List Byte) : (s.setInPort v).rst = s.rst := rfl
@[simp] theorem State.setInPort_loadPort (v : List Byte) : (s.setInPort v).loadPort = s.loadPort := rfl
@[simp] theorem State.setInPort_inPort (v : List Byte) : (s.setInPort v).inPort = v := rfl
@[simp] theorem State.setInPort_inEnded (v : List Byte) : (s.setInPort v).inEnded = s.inEnded := rfl
@[simp] theorem State.setInPort_outReady (v : List Byte) : (s.setInPort v).outReady = s.outReady := rfl
@[simp] theorem State.setInPort_outStream (v : List Byte) : (s.setInPort v).outStream = s.outStream := rfl
@[simp] theorem State.setInPort_cell (v : List Byte) (a : Nat) : (s.setInPort v).cell a = s.cell a := rfl
@[simp] theorem State.setInPort_progByte (v : List Byte) (a : Nat) : (s.setInPort v).progByte a = s.progByte a := rfl
@[simp] theorem State.setInPort_jtTarget (v : List Byte) (a : Nat) : (s.setInPort v).jtTarget a = s.jtTarget a := rfl

@[simp] theorem State.setOutStream_params (v : List Byte) : (s.setOutStream v).params = s.params := rfl
@[simp] theorem State.setOutStream_phase (v : List Byte) : (s.setOutStream v).phase = s.phase := rfl
@[simp] theorem State.setOutStream_cause (v : List Byte) : (s.setOutStream v).cause = s.cause := rfl
@[simp] theorem State.setOutStream_pc (v : List Byte) : (s.setOutStream v).pc = s.pc := rfl
@[simp] theorem State.setOutStream_dp (v : List Byte) : (s.setOutStream v).dp = s.dp := rfl
@[simp] theorem State.setOutStream_progLen (v : List Byte) : (s.setOutStream v).progLen = s.progLen := rfl
@[simp] theorem State.setOutStream_prog (v : List Byte) : (s.setOutStream v).prog = s.prog := rfl
@[simp] theorem State.setOutStream_tape (v : List Byte) : (s.setOutStream v).tape = s.tape := rfl
@[simp] theorem State.setOutStream_jt (v : List Byte) : (s.setOutStream v).jt = s.jt := rfl
@[simp] theorem State.setOutStream_stk (v : List Byte) : (s.setOutStream v).stk = s.stk := rfl
@[simp] theorem State.setOutStream_loader (v : List Byte) : (s.setOutStream v).loader = s.loader := rfl
@[simp] theorem State.setOutStream_hold (v : List Byte) : (s.setOutStream v).hold = s.hold := rfl
@[simp] theorem State.setOutStream_rst (v : List Byte) : (s.setOutStream v).rst = s.rst := rfl
@[simp] theorem State.setOutStream_loadPort (v : List Byte) : (s.setOutStream v).loadPort = s.loadPort := rfl
@[simp] theorem State.setOutStream_inPort (v : List Byte) : (s.setOutStream v).inPort = s.inPort := rfl
@[simp] theorem State.setOutStream_inEnded (v : List Byte) : (s.setOutStream v).inEnded = s.inEnded := rfl
@[simp] theorem State.setOutStream_outReady (v : List Byte) : (s.setOutStream v).outReady = s.outReady := rfl
@[simp] theorem State.setOutStream_outStream (v : List Byte) : (s.setOutStream v).outStream = v := rfl
@[simp] theorem State.setOutStream_cell (v : List Byte) (a : Nat) : (s.setOutStream v).cell a = s.cell a := rfl
@[simp] theorem State.setOutStream_progByte (v : List Byte) (a : Nat) : (s.setOutStream v).progByte a = s.progByte a := rfl
@[simp] theorem State.setOutStream_jtTarget (v : List Byte) (a : Nat) : (s.setOutStream v).jtTarget a = s.jtTarget a := rfl

@[simp] theorem State.setTape_cell (m : Memory) (a : Nat) : (s.setTape m).cell a = Memory.read m a := rfl
@[simp] theorem State.setProg_progByte (m : Memory) (a : Nat) : (s.setProg m).progByte a = Sparse.lookup m a := rfl
@[simp] theorem State.setJt_jtTarget (t : JumpTable) (k : Nat) : (s.setJt t).jtTarget k = Sparse.lookup t k := rfl

end Sys2Proof.Machine
end

