-- ==== Sys2Proof/Laws/Ops.lean ====
section
/-! SUPPORT. Ops.lean: what each shared operation can do, said once, and from these what each instruction
can do (`ExecCase`). Later proofs cite these and do not unfold the operations. -/

namespace Sys2Proof.Machine

variable {s t : State}

@[simp] theorem raiseFault_eq (c : Cause) (s : State) : raiseFault c s = s.setStatus .faulted c := rfl

/-! ## The tape -/

theorem withCell_inRange (h : s.dpInRange) (f : Byte → Result) : withCell s f = f s.currentCell :=
  if_pos h

theorem withCell_outOfRange (h : ¬ s.dpInRange) (f : Byte → Result) :
    withCell s f = .fault .tapeAddressOutOfRange := if_neg h

theorem withCell_next {f : Byte → Result} (h : withCell s f = .next t) :
    s.dpInRange ∧ f s.currentCell = .next t := by
  by_cases hd : s.dpInRange
  · exact ⟨hd, withCell_inRange hd f ▸ h⟩
  · rw [withCell_outOfRange hd] at h; cases h

theorem storeCell_inRange (h : s.dpInRange) (v : Byte) :
    storeCell s v = .next (s.setTape (Memory.write s.tape s.dp.toNat v)) := if_pos h

theorem storeCell_outOfRange (h : ¬ s.dpInRange) (v : Byte) :
    storeCell s v = .fault .tapeAddressOutOfRange := if_neg h

theorem storeCell_next {v : Byte} (h : storeCell s v = .next t) :
    s.dpInRange ∧ t = s.setTape (Memory.write s.tape s.dp.toNat v) := by
  by_cases hd : s.dpInRange
  · rw [storeCell_inRange hd] at h; exact ⟨hd, by simpa using h.symm⟩
  · rw [storeCell_outOfRange hd] at h; cases h

/-! ## The ring counter -/

theorem ringSucc_toNat {n : Nat} (h1 : 1 ≤ n) (h2 : n ≤ 65536) (a : Word) :
    (ringSucc n a).toNat = (a.toNat + 1) % n := by
  have : (a.toNat + 1) % n < n := Nat.mod_lt _ h1
  simp only [ringSucc, BitVec.toNat_ofNat]
  exact Nat.mod_eq_of_lt (by omega)

theorem ringPred_toNat {n : Nat} (h1 : 1 ≤ n) (h2 : n ≤ 65536) (a : Word) :
    (ringPred n a).toNat = (a.toNat + n - 1) % n := by
  have : (a.toNat + n - 1) % n < n := Nat.mod_lt _ h1
  simp only [ringPred, BitVec.toNat_ofNat]
  exact Nat.mod_eq_of_lt (by omega)

theorem Params.wf_iff {p : Params} :
    p.wf = true ↔ 1 ≤ p.progCap ∧ p.progCap ≤ 65535 ∧ 1 ≤ p.tapeCap ∧ p.tapeCap ≤ 65536 := by
  simp [Params.wf, and_assoc]

/-! ## The jump -/

theorem takeJump_some {target : Word} (h : s.jtTarget s.jumpKey = some target) :
    takeJump s = s.setPc target := by simp [takeJump, h]

theorem takeJump_none (h : s.jtTarget s.jumpKey = none) :
    takeJump s = s.setStatus .faulted .jtMiss := by simp [takeJump, h]

/-- The fetch's advance and the jump key's `- 1` cancel: the key is the bracket's own position (R112). -/
theorem jumpKey_advancePc (s : State) : (advancePc s).jumpKey = s.pc.toNat := by
  simp [State.jumpKey, advancePc]

/-! ## The ports -/

/-- What the transfer of READ can do, as it starts or while it holds. -/
inductive InputCase (s : State) : State → Prop where
  | byte (b : Byte) (rest : List Byte) (hin : s.inPort = b :: rest) (hd : s.dpInRange) :
      InputCase s (((s.setInPort rest).setHold .free).setTape (Memory.write s.tape s.dp.toNat b))
  | held (hin : s.inPort = []) (he : s.inEnded = false) : InputCase s (s.setHold .input)
  | unchanged (hin : s.inPort = []) (he : s.inEnded = true) (hp : s.params.pEof = .unchanged) :
      InputCase s (s.setHold .free)
  | zero (hin : s.inPort = []) (he : s.inEnded = true) (hp : s.params.pEof = .zero) (hd : s.dpInRange) :
      InputCase s ((s.setHold .free).setTape (Memory.write s.tape s.dp.toNat 0x00#8))
  | allOnes (hin : s.inPort = []) (he : s.inEnded = true) (hp : s.params.pEof = .allOnes) (hd : s.dpInRange) :
      InputCase s ((s.setHold .free).setTape (Memory.write s.tape s.dp.toNat 0xFF#8))
  | fault (hin : s.inPort = []) (he : s.inEnded = true) (hp : s.params.pEof = .fault) :
      InputCase s ((s.setHold .free).setStatus .faulted .inputEnd)

theorem inputTransfer_next (h : inputTransfer s = .next t) : InputCase s t := by
  unfold inputTransfer takeInput at h
  cases hin : s.inPort with
  | cons b rest =>
    simp only [hin] at h
    obtain ⟨hd, rfl⟩ := storeCell_next h
    exact .byte b rest hin hd
  | nil =>
    cases he : s.inEnded with
    | false => simp only [hin, he] at h; cases h; exact .held hin he
    | true =>
      simp only [hin, he, if_true, eofAction] at h
      cases hp : s.params.pEof with
      | unchanged => simp only [hp] at h; cases h; exact .unchanged hin he hp
      | zero => simp only [hp] at h; obtain ⟨hd, rfl⟩ := storeCell_next h; exact .zero hin he hp hd
      | allOnes => simp only [hp] at h; obtain ⟨hd, rfl⟩ := storeCell_next h; exact .allOnes hin he hp hd
      | fault => simp only [hp] at h; cases h; exact .fault hin he hp

/-- The other direction: each case is what the transfer answers. -/
theorem InputCase.eq (h : InputCase s t) : inputTransfer s = .next t := by
  cases h with
  | byte b rest hin hd =>
    simp only [inputTransfer, takeInput, hin]
    exact storeCell_inRange (s := (s.setInPort rest).setHold .free) hd b
  | held hin he => simp [inputTransfer, takeInput, hin, he]
  | unchanged hin he hp => simp [inputTransfer, takeInput, hin, he, eofAction, hp]
  | zero hin he hp hd =>
    simp only [inputTransfer, takeInput, hin, he, if_true, eofAction, hp]
    exact storeCell_inRange (s := s.setHold .free) hd _
  | allOnes hin he hp hd =>
    simp only [inputTransfer, takeInput, hin, he, if_true, eofAction, hp]
    exact storeCell_inRange (s := s.setHold .free) hd _
  | fault hin he hp => simp [inputTransfer, takeInput, hin, he, eofAction, hp]

/-- The transfer of READ answers a next state wherever `dp` is an address of the tape. -/
theorem inputTransfer_answers (hd : s.dpInRange) : ∃ t, inputTransfer s = .next t := by
  cases hin : s.inPort with
  | cons b rest => exact ⟨_, (InputCase.byte b rest hin hd).eq⟩
  | nil =>
    cases he : s.inEnded with
    | false => exact ⟨_, (InputCase.held hin he).eq⟩
    | true =>
      cases hp : s.params.pEof with
      | unchanged => exact ⟨_, (InputCase.unchanged hin he hp).eq⟩
      | zero => exact ⟨_, (InputCase.zero hin he hp hd).eq⟩
      | allOnes => exact ⟨_, (InputCase.allOnes hin he hp hd).eq⟩
      | fault => exact ⟨_, (InputCase.fault hin he hp).eq⟩

/-- What the transfer of WRITE can do, as it starts or while it holds. -/
inductive OutputCase (v : Byte) (s : State) : State → Prop where
  | accepted (hr : s.outReady = true) : OutputCase v s ((s.setOutStream (s.outStream ++ [v])).setHold .free)
  | held (hr : s.outReady = false) : OutputCase v s (s.setHold (.output v))

theorem outputTransfer_next {v : Byte} (h : outputTransfer v s = .next t) : OutputCase v s t := by
  unfold outputTransfer at h
  split at h
  · cases h; exact .accepted ‹_›
  · cases h; exact .held (Bool.eq_false_iff.2 ‹_›)

theorem OutputCase.eq {v : Byte} (h : OutputCase v s t) : outputTransfer v s = .next t := by
  cases h with
  | accepted hr => simp [outputTransfer, hr]
  | held hr => simp [outputTransfer, hr]

theorem outputTransfer_answers (v : Byte) (s : State) : ∃ t, outputTransfer v s = .next t := by
  cases hr : s.outReady with
  | true => exact ⟨_, (OutputCase.accepted hr).eq⟩
  | false => exact ⟨_, (OutputCase.held hr).eq⟩

/-! ## The instructions -/

/-- What the execute part of an instruction can do, if it answers a next state. -/
inductive ExecCase (s : State) : Instr → State → Prop where
  | inc (hd : s.dpInRange) :
      ExecCase s .inc (s.setTape (Memory.write s.tape s.dp.toNat (s.currentCell + 1#8)))
  | dec (hd : s.dpInRange) :
      ExecCase s .dec (s.setTape (Memory.write s.tape s.dp.toNat (s.currentCell - 1#8)))
  | right : ExecCase s .right (s.setDp (ringSucc s.params.tapeCap s.dp))
  | left : ExecCase s .left (s.setDp (ringPred s.params.tapeCap s.dp))
  | jfFall (hd : s.dpInRange) (hc : s.currentCell ≠ 0#8) : ExecCase s .jf s
  | jfJump (hd : s.dpInRange) (hc : s.currentCell = 0#8) (target : Word)
      (ht : s.jtTarget s.jumpKey = some target) : ExecCase s .jf (s.setPc target)
  | jfMiss (hd : s.dpInRange) (hc : s.currentCell = 0#8) (ht : s.jtTarget s.jumpKey = none) :
      ExecCase s .jf (s.setStatus .faulted .jtMiss)
  | jbFall (hd : s.dpInRange) (hc : s.currentCell = 0#8) : ExecCase s .jb s
  | jbJump (hd : s.dpInRange) (hc : s.currentCell ≠ 0#8) (target : Word)
      (ht : s.jtTarget s.jumpKey = some target) : ExecCase s .jb (s.setPc target)
  | jbMiss (hd : s.dpInRange) (hc : s.currentCell ≠ 0#8) (ht : s.jtTarget s.jumpKey = none) :
      ExecCase s .jb (s.setStatus .faulted .jtMiss)
  | write (hd : s.dpInRange) (t : State) (h : OutputCase s.currentCell s t) : ExecCase s .write t
  | read (t : State) (h : InputCase s t) : ExecCase s .read t
  | nop (b : Byte) : ExecCase s (.nop b) s

theorem exec_next {i : Instr} (h : exec i s = .next t) : ExecCase s i t := by
  cases i with
  | inc =>
    obtain ⟨hd, h⟩ := withCell_next (f := fun v => storeCell s (v + 1#8)) h
    obtain ⟨-, rfl⟩ := storeCell_next h
    exact .inc hd
  | dec =>
    obtain ⟨hd, h⟩ := withCell_next (f := fun v => storeCell s (v - 1#8)) h
    obtain ⟨-, rfl⟩ := storeCell_next h
    exact .dec hd
  | right => cases h; exact .right
  | left => cases h; exact .left
  | jf =>
    obtain ⟨hd, h⟩ := withCell_next (f := fun v => if cellIsZero v then .next (takeJump s) else .next s) h
    by_cases hc : s.currentCell = 0#8
    · simp only [cellIsZero, hc, decide_true, if_true] at h
      cases h
      cases ht : s.jtTarget s.jumpKey with
      | none => rw [takeJump_none ht]; exact .jfMiss hd hc ht
      | some target => rw [takeJump_some ht]; exact .jfJump hd hc target ht
    · simp only [cellIsZero, hc, decide_false, Bool.false_eq_true, if_false] at h
      cases h
      exact .jfFall hd hc
  | jb =>
    obtain ⟨hd, h⟩ := withCell_next (f := fun v => if cellIsZero v then .next s else .next (takeJump s)) h
    by_cases hc : s.currentCell = 0#8
    · simp only [cellIsZero, hc, decide_true, if_true] at h
      cases h
      exact .jbFall hd hc
    · simp only [cellIsZero, hc, decide_false, Bool.false_eq_true, if_false] at h
      cases h
      cases ht : s.jtTarget s.jumpKey with
      | none => rw [takeJump_none ht]; exact .jbMiss hd hc ht
      | some target => rw [takeJump_some ht]; exact .jbJump hd hc target ht
  | write =>
    obtain ⟨hd, h⟩ := withCell_next (f := fun v => outputTransfer v s) h
    exact .write hd t (outputTransfer_next h)
  | read => exact .read t (inputTransfer_next h)
  | nop b => cases h; exact .nop b

/-- The other direction: each case is what exec answers. -/
theorem ExecCase.eq {i : Instr} (h : ExecCase s i t) : exec i s = .next t := by
  cases h with
  | inc hd => simp only [exec, execInc, withCell_inRange hd, storeCell_inRange hd]
  | dec hd => simp only [exec, execDec, withCell_inRange hd, storeCell_inRange hd]
  | right => rfl
  | left => rfl
  | jfFall hd hc => simp [exec, execJf, withCell_inRange hd, cellIsZero, hc]
  | jfJump hd hc target ht => simp [exec, execJf, withCell_inRange hd, cellIsZero, hc, takeJump_some ht]
  | jfMiss hd hc ht => simp [exec, execJf, withCell_inRange hd, cellIsZero, hc, takeJump_none ht]
  | jbFall hd hc => simp [exec, execJb, withCell_inRange hd, cellIsZero, hc]
  | jbJump hd hc target ht => simp [exec, execJb, withCell_inRange hd, cellIsZero, hc, takeJump_some ht]
  | jbMiss hd hc ht => simp [exec, execJb, withCell_inRange hd, cellIsZero, hc, takeJump_none ht]
  | write hd t h => simp only [exec, execWrite, withCell_inRange hd, h.eq]
  | read t h => exact h.eq
  | nop b => rfl

/-- The execute part answers a next state wherever `dp` is an address of the tape. -/
theorem exec_answers (i : Instr) (hd : s.dpInRange) : ∃ t, exec i s = .next t := by
  cases i with
  | inc => exact ⟨_, (ExecCase.inc hd).eq⟩
  | dec => exact ⟨_, (ExecCase.dec hd).eq⟩
  | right => exact ⟨_, ExecCase.right.eq⟩
  | left => exact ⟨_, ExecCase.left.eq⟩
  | jf =>
    by_cases hc : s.currentCell = 0#8
    · cases ht : s.jtTarget s.jumpKey with
      | none => exact ⟨_, (ExecCase.jfMiss hd hc ht).eq⟩
      | some target => exact ⟨_, (ExecCase.jfJump hd hc target ht).eq⟩
    · exact ⟨_, (ExecCase.jfFall hd hc).eq⟩
  | jb =>
    by_cases hc : s.currentCell = 0#8
    · exact ⟨_, (ExecCase.jbFall hd hc).eq⟩
    · cases ht : s.jtTarget s.jumpKey with
      | none => exact ⟨_, (ExecCase.jbMiss hd hc ht).eq⟩
      | some target => exact ⟨_, (ExecCase.jbJump hd hc target ht).eq⟩
  | write =>
    obtain ⟨t, ht⟩ := outputTransfer_answers s.currentCell s
    exact ⟨t, (ExecCase.write hd t (outputTransfer_next ht)).eq⟩
  | read => exact inputTransfer_answers hd
  | nop b => exact ⟨_, (ExecCase.nop b).eq⟩

end Sys2Proof.Machine
end

