-- ==== Sys2Proof/Laws/PerInstr.lean ====
section
/-! SUPPORT. PerInstr.lean: the family `EncodeDecode`, one lemma per instruction (spec/30_encoding.md R63,
R64): the decoder reads back the byte the encoder writes. -/

namespace Sys2Proof.Laws.EncodeDecode

/-- The decoder reads the instruction back from its byte. -/
def Statement (i : Instr) : Prop := i.wf = true → decode (encodeByte i) = i

theorem inc : Statement .inc := fun _ => rfl
theorem dec : Statement .dec := fun _ => rfl
theorem right : Statement .right := fun _ => rfl
theorem left : Statement .left := fun _ => rfl
theorem jf : Statement .jf := fun _ => rfl
theorem jb : Statement .jb := fun _ => rfl
theorem write : Statement .write := fun _ => rfl
theorem read : Statement .read := fun _ => rfl
theorem nop (byte : Byte) : Statement (.nop byte) := fun h => decode_of_notMem (nop_wf_iff.1 h)

end Sys2Proof.Laws.EncodeDecode
end

