-- ==== Sys2Proof/Laws/Step.lean ====
section
/-! SUPPORT. Step.lean: everything one step of the block can do (`StepCase`), said once, and the small laws
of runs. -/

namespace Sys2Proof.Machine

variable {s t : State}

/-- What a step can do, if it answers a next state. -/
inductive StepCase (s : State) : State → Prop where
  | reset (hr : s.rst = true) : StepCase s (resetEntry s)
  | release (hr : s.rst = false) (hp : s.phase = .reset) : StepCase s (s.setStatus .load .none)
  | copyFull (hr : s.rst = false) (hp : s.phase = .load) (n : Nat) (hl : s.loader = .copy n)
      (hn : s.params.progCap ≤ n) : StepCase s (finishCopy n s)
  | copyHeld (hr : s.rst = false) (hp : s.phase = .load) (n : Nat) (hl : s.loader = .copy n)
      (hn : n < s.params.progCap) (hq : s.loadPort = []) : StepCase s s
  | copyByte (hr : s.rst = false) (hp : s.phase = .load) (n : Nat) (hl : s.loader = .copy n)
      (hn : n < s.params.progCap) (b : Byte) (rest : List LoadEvent) (hq : s.loadPort = .byte b :: rest) :
      StepCase s (((s.setLoadPort rest).setProg (Sparse.put s.prog n b)).setLoader (.copy (n + 1)))
  | copyEnded (hr : s.rst = false) (hp : s.phase = .load) (n : Nat) (hl : s.loader = .copy n)
      (hn : n < s.params.progCap) (rest : List LoadEvent) (hq : s.loadPort = .ended :: rest) :
      StepCase s (finishCopy n (s.setLoadPort rest))
  | copyError (hr : s.rst = false) (hp : s.phase = .load) (n : Nat) (hl : s.loader = .copy n)
      (hn : n < s.params.progCap) (rest : List LoadEvent) (hq : s.loadPort = .error :: rest) :
      StepCase s ((s.setLoadPort rest).setStatus .faulted .loadIoError)
  | scanOpen (hr : s.rst = false) (hp : s.phase = .load) (i : Nat) (hl : s.loader = .scan i)
      (hi : i < s.progLen.toNat) (hb : s.progByte i = some jfByte) :
      StepCase s ((s.setStk (BitVec.ofNat 16 i :: s.stk)).setLoader (.scan (i + 1)))
  | scanClose (hr : s.rst = false) (hp : s.phase = .load) (i : Nat) (hl : s.loader = .scan i)
      (hi : i < s.progLen.toNat) (hb : s.progByte i = some jbByte) (m : Word) (rest : List Word)
      (hk : s.stk = m :: rest) :
      StepCase s (((s.setStk rest).setJt (recordPair m i s.jt)).setLoader (.scan (i + 1)))
  | scanUnbalancedClose (hr : s.rst = false) (hp : s.phase = .load) (i : Nat) (hl : s.loader = .scan i)
      (hi : i < s.progLen.toNat) (hb : s.progByte i = some jbByte) (hk : s.stk = []) :
      StepCase s (s.setStatus .faulted .unbalancedClose)
  | scanOther (hr : s.rst = false) (hp : s.phase = .load) (i : Nat) (hl : s.loader = .scan i)
      (hi : i < s.progLen.toNat) (b : Byte) (hb : s.progByte i = some b) (hf : b ≠ jfByte) (hj : b ≠ jbByte) :
      StepCase s (s.setLoader (.scan (i + 1)))
  | scanDone (hr : s.rst = false) (hp : s.phase = .load) (i : Nat) (hl : s.loader = .scan i)
      (hi : s.progLen.toNat ≤ i) (hk : s.stk = []) : StepCase s (s.setStatus .run .none)
  | scanUnbalancedOpen (hr : s.rst = false) (hp : s.phase = .load) (i : Nat) (hl : s.loader = .scan i)
      (hi : s.progLen.toNat ≤ i) (hk : s.stk ≠ []) : StepCase s (s.setStatus .faulted .unbalancedOpen)
  | exec (b : Byte) (hf : s.fetches b) (t : State) (h : ExecCase (advancePc s) (decode b) t) : StepCase s t
  | halt (hrun : s.running) (he : s.pc = s.progLen) : StepCase s (s.setStatus .halted .none)
  | input (hr : s.rst = false) (hp : s.phase = .run) (hh : s.hold = .input) (t : State)
      (h : InputCase s t) : StepCase s t
  | output (hr : s.rst = false) (hp : s.phase = .run) (v : Byte) (hh : s.hold = .output v) (t : State)
      (h : OutputCase v s t) : StepCase s t
  | ended (hr : s.rst = false) (hp : s.phase = .halted ∨ s.phase = .faulted) : StepCase s s

theorem step_reset (hr : s.rst = true) : step s = .next (resetEntry s) := by simp [step, hr]

theorem step_load (hr : s.rst = false) (hp : s.phase = .load) : step s = loadStep s := by
  simp [step, hr, hp]

theorem step_run (hr : s.rst = false) (hp : s.phase = .run) : step s = runStep s := by
  simp [step, hr, hp]

theorem step_ended (hr : s.rst = false) (hp : s.phase = .halted ∨ s.phase = .faulted) :
    step s = .next s := by
  rcases hp with hp | hp <;> simp [step, hr, hp]

/-- A step that fetches runs the decoded instruction behind the advance of `pc`. -/
theorem step_fetches {b : Byte} (h : s.fetches b) : step s = exec (decode b) (advancePc s) := by
  obtain ⟨⟨hr, hp, hh⟩, hlt, hb⟩ := h
  rw [step_run hr hp]
  simp [runStep, hh, fetchStep, hlt, fetchByte, hb]

/-- A step at the end of the program halts. -/
theorem step_halts (h : s.running) (he : s.pc = s.progLen) : step s = .next (haltEntry s) := by
  obtain ⟨hr, hp, hh⟩ := h
  rw [step_run hr hp]
  simp [runStep, hh, fetchStep, he]

theorem step_next (h : step s = .next t) : StepCase s t := by
  cases hr : s.rst with
  | true => rw [step_reset hr] at h; cases h; exact .reset hr
  | false =>
    cases hp : s.phase with
    | reset => simp [step, hr, hp] at h; cases h; exact .release hr hp
    | halted => rw [step_ended hr (.inl hp)] at h; cases h; exact .ended hr (.inl hp)
    | faulted => rw [step_ended hr (.inr hp)] at h; cases h; exact .ended hr (.inr hp)
    | load =>
      rw [step_load hr hp] at h
      unfold loadStep at h
      cases hl : s.loader with
      | copy n =>
        simp only [hl, copyStep] at h
        by_cases hn : s.params.progCap ≤ n
        · rw [if_pos hn] at h; cases h; exact .copyFull hr hp n hl hn
        · rw [if_neg hn] at h
          have hn : n < s.params.progCap := by omega
          cases hq : s.loadPort with
          | nil => simp only [hq] at h; cases h; exact .copyHeld hr hp n hl hn hq
          | cons e rest =>
            cases e with
            | byte b => simp only [hq] at h; cases h; exact .copyByte hr hp n hl hn b rest hq
            | ended => simp only [hq] at h; cases h; exact .copyEnded hr hp n hl hn rest hq
            | error => simp only [hq] at h; cases h; exact .copyError hr hp n hl hn rest hq
      | scan i =>
        simp only [hl, scanStep] at h
        by_cases hi : i < s.progLen.toNat
        · rw [if_pos hi] at h
          cases hb : s.progByte i with
          | none => simp [hb] at h
          | some b =>
            simp only [hb] at h
            by_cases hf : b = jfByte
            · subst hf; simp [scanByte] at h; cases h; exact .scanOpen hr hp i hl hi hb
            · by_cases hj : b = jbByte
              · subst hj
                simp only [scanByte, if_neg hf, if_pos] at h
                cases hk : s.stk with
                | nil => simp only [hk] at h; cases h; exact .scanUnbalancedClose hr hp i hl hi hb hk
                | cons m rest => simp only [hk] at h; cases h; exact .scanClose hr hp i hl hi hb m rest hk
              · simp only [scanByte, if_neg hf, if_neg hj] at h
                cases h; exact .scanOther hr hp i hl hi b hb hf hj
        · rw [if_neg hi] at h
          have hi : s.progLen.toNat ≤ i := by omega
          cases hk : s.stk with
          | nil => simp only [finishScan, hk] at h; cases h; exact .scanDone hr hp i hl hi hk
          | cons m rest =>
            simp only [finishScan, hk] at h; cases h
            exact .scanUnbalancedOpen hr hp i hl hi (by simp [hk])
    | run =>
      rw [step_run hr hp] at h
      unfold runStep at h
      cases hh : s.hold with
      | input => simp only [hh] at h; exact .input hr hp hh t (inputTransfer_next h)
      | output v => simp only [hh] at h; exact .output hr hp v hh t (outputTransfer_next h)
      | free =>
        simp only [hh, fetchStep] at h
        by_cases hlt : s.pc.toNat < s.progLen.toNat
        · rw [if_pos hlt] at h
          cases hb : fetchByte s with
          | none => simp [hb] at h
          | some b =>
            simp only [hb] at h
            exact .exec b ⟨⟨hr, hp, hh⟩, hlt, hb⟩ t (exec_next h)
        · rw [if_neg hlt] at h
          by_cases he : s.pc = s.progLen
          · rw [if_pos he] at h; cases h; exact .halt ⟨hr, hp, hh⟩ he
          · rw [if_neg he] at h; cases h

/-! ## Runs -/

theorem runSteps_succ (h : step s = .next t) (k : Nat) : runSteps (k + 1) s = runSteps k t := by
  simp [runSteps, h]

/-- Two stretches of a run make one run. -/
theorem runSteps_add {u : State} {j : Nat} (h : runSteps j s = .next t) (k : Nat) (hk : runSteps k t = .next u) :
    runSteps (j + k) s = .next u := by
  induction j generalizing s with
  | zero => cases h; simpa using hk
  | succ j ih =>
    rw [Nat.succ_add]
    simp only [runSteps] at h ⊢
    cases hs : step s with
    | next s' => rw [hs] at h; exact ih h
    | fault f => rw [hs] at h; cases h
    | refused r => rw [hs] at h; cases h

end Sys2Proof.Machine
end

