-- ==== Sys2Proof/Laws/Scan.lean ====
section
/-! SUPPORT. Scan.lean: each turn of the loader's scan keeps the jump table and the bracket stack right for
the positions scanned (spec/70_reset_and_hazards.md R155, R156). -/

namespace Sys2Proof.Machine
variable {s t : State}

/-- A position fits a 16-bit word. -/
theorem ofNat16_toNat {n : Nat} (h : n < 65536) : (BitVec.ofNat 16 n).toNat = n := by
  simp [Nat.mod_eq_of_lt h]

/-- A matched pair is read off program memory and the jump table alone. -/
theorem State.paired_congr (hp : ∀ a, t.progByte a = s.progByte a) (hj : ∀ k, t.jtTarget k = s.jtTarget k)
    (m j : Nat) : t.paired m j ↔ s.paired m j := by
  simp only [State.paired, hp, hj]

/-- The scan's state is read off program memory, the jump table and the stack alone. -/
theorem State.scannedTo_congr {i : Nat} (hp : ∀ a, t.progByte a = s.progByte a)
    (hj : ∀ k, t.jtTarget k = s.jtTarget k) (hk : t.stk = s.stk) (h : s.scannedTo i) : t.scannedTo i := by
  constructor
  · rw [hk]; simpa only [hp, hj] using h.openOnStack
  · rw [hk]; exact h.stackFalls
  · rw [hk]; simpa only [hp, State.paired_congr hp hj] using h.openPlaced
  · simpa only [hp, State.paired_congr hp hj] using h.closePlaced
  · simpa only [hj, State.paired_congr hp hj] using h.entryPaired

/-- Before the first position. -/
theorem State.scannedTo_zero (hk : s.stk = []) (hj : ∀ k, s.jtTarget k = none) : s.scannedTo 0 := by
  constructor
  · simp [hk]
  · simp [hk]
  · intro m hm; omega
  · intro m hm; omega
  · intro k t h; simp [hj] at h

/-- A position not scanned yet has no entry. -/
theorem State.scannedTo.fresh {i : Nat} (h : s.scannedTo i) {k : Nat} (hk : i ≤ k) : s.jtTarget k = none := by
  cases ht : s.jtTarget k with
  | none => rfl
  | some u =>
    obtain ⟨m, j, hj, hp, rfl | rfl⟩ := h.entryPaired k u ht
    · have := hp.1; omega
    · omega

/-- A `[` is pushed (R155). -/
theorem State.scannedTo_open {i : Nat} (h : s.scannedTo i) (hi : i < 65535) (hb : s.progByte i = some jfByte)
    (l : Loader) :
    ((s.setStk (BitVec.ofNat 16 i :: s.stk)).setLoader l).scannedTo (i + 1) := by
  have hn : (BitVec.ofNat 16 i).toNat = i := ofNat16_toNat (by omega)
  constructor
  · intro p hp
    simp only [State.setLoader_stk, State.setStk_stk, List.mem_cons] at hp
    rcases hp with rfl | hp
    · simp only [hn]; exact ⟨by omega, hb, h.fresh (Nat.le_refl i)⟩
    · obtain ⟨h1, h2, h3⟩ := h.openOnStack p hp
      exact ⟨by omega, h2, h3⟩
  · simp only [State.setLoader_stk, State.setStk_stk]
    refine List.pairwise_cons.2 ⟨fun p hp => ?_, h.stackFalls⟩
    rw [hn]; exact (h.openOnStack p hp).1
  · intro m hm hmb
    by_cases hmi : m = i
    · subst hmi; exact .inl ⟨_, by simp, hn⟩
    · rcases h.openPlaced m (by omega) hmb with ⟨p, hp, rfl⟩ | ⟨j, hj, hp⟩
      · exact .inl ⟨p, by simp [hp], rfl⟩
      · exact .inr ⟨j, by omega, hp⟩
  · intro j hj hjb
    by_cases hji : j = i
    · subst hji
      have : s.progByte j = some jbByte := hjb
      rw [hb] at this; exact absurd (Option.some.inj this) (by decide)
    · exact h.closePlaced j (by omega) hjb
  · intro k u hk
    obtain ⟨m, j, hj, hp, hor⟩ := h.entryPaired k u hk
    exact ⟨m, j, by omega, hp, hor⟩

/-- What the table reads as after a pair was recorded (R156). -/
theorem lookup_recordPair (m : Word) (i : Nat) (t : JumpTable) (k : Nat) :
    Sparse.lookup (recordPair m i t) k =
      if k = i then some (m + 1#16) else if k = m.toNat then some (BitVec.ofNat 16 (i + 1))
      else Sparse.lookup t k := by
  simp only [recordPair, Sparse.lookup_put]

/-- A `]` pops its partner and records the pair (R155, R156). -/
theorem State.scannedTo_close {i : Nat} (h : s.scannedTo i) (hi : i < 65535) (hb : s.progByte i = some jbByte)
    {m : Word} {rest : List Word} (hk : s.stk = m :: rest) (l : Loader) :
    (((s.setStk rest).setJt (recordPair m i s.jt)).setLoader l).scannedTo (i + 1) := by
  set t := ((s.setStk rest).setJt (recordPair m i s.jt)).setLoader l with ht
  obtain ⟨hm, hmb, hmj⟩ := h.openOnStack m (by simp [hk])
  have hjt : ∀ k, t.jtTarget k = if k = i then some (m + 1#16) else if k = m.toNat then
      some (BitVec.ofNat 16 (i + 1)) else s.jtTarget k := fun k => lookup_recordPair m i s.jt k
  have hpb : ∀ a, t.progByte a = s.progByte a := fun _ => rfl
  have hfall := h.stackFalls
  rw [hk] at hfall
  obtain ⟨hlow, hfall⟩ := List.pairwise_cons.1 hfall
  have hm1 : m + 1#16 = BitVec.ofNat 16 (m.toNat + 1) := by
    apply BitVec.eq_of_toNat_eq
    simp [BitVec.toNat_add]
  have hpair : t.paired m.toNat i := by
    refine ⟨hm, hmb, hb, ?_, ?_⟩
    · rw [hjt, if_neg (by omega), if_pos rfl]
    · rw [hjt, if_pos rfl, hm1]
  have hold : ∀ {a b}, b < i → s.paired a b → t.paired a b := by
    intro a b hb' ⟨h1, h2, h3, h4, h5⟩
    refine ⟨h1, h2, h3, ?_, ?_⟩
    · rw [hjt, if_neg (by omega), if_neg, h4]
      rintro rfl; rw [h4] at hmj; cases hmj
    · rw [hjt, if_neg (by omega), if_neg, h5]
      rintro rfl; rw [h5] at hmj; cases hmj
  constructor
  · intro p hp
    have hp : p ∈ rest := hp
    obtain ⟨h1, h2, h3⟩ := h.openOnStack p (by simp [hk, hp])
    have := hlow p hp
    refine ⟨by omega, h2, ?_⟩
    rw [hjt, if_neg (by omega), if_neg (by omega), h3]
  · exact hfall
  · intro a ha hab
    by_cases hai : a = i
    · subst hai
      have : s.progByte a = some jfByte := hab
      rw [hb] at this; exact absurd (Option.some.inj this) (by decide)
    · rcases h.openPlaced a (by omega) hab with ⟨p, hp, rfl⟩ | ⟨j, hj, hp⟩
      · rw [hk] at hp
        rcases List.mem_cons.1 hp with rfl | hp
        · exact .inr ⟨i, by omega, hpair⟩
        · exact .inl ⟨p, hp, rfl⟩
      · exact .inr ⟨j, by omega, hold hj hp⟩
  · intro j hj hjb
    by_cases hji : j = i
    · subst hji; exact ⟨_, hpair⟩
    · obtain ⟨a, ha⟩ := h.closePlaced j (by omega) hjb
      exact ⟨a, hold (by omega) ha⟩
  · intro k u hku
    rw [hjt] at hku
    split at hku
    · subst_vars; exact ⟨_, _, by omega, hpair, .inr rfl⟩
    · split at hku
      · subst_vars; exact ⟨_, _, by omega, hpair, .inl rfl⟩
      · obtain ⟨a, j, hj, hp, hor⟩ := h.entryPaired k u hku
        exact ⟨a, j, by omega, hold hj hp, hor⟩

/-- Any other byte does nothing (R155). -/
theorem State.scannedTo_other {i : Nat} (h : s.scannedTo i) {b : Byte} (hb : s.progByte i = some b)
    (hf : b ≠ jfByte) (hj : b ≠ jbByte) (l : Loader) : (s.setLoader l).scannedTo (i + 1) := by
  constructor
  · intro p hp
    obtain ⟨h1, h2, h3⟩ := h.openOnStack p hp
    exact ⟨by omega, h2, h3⟩
  · exact h.stackFalls
  · intro m hm hmb
    by_cases hmi : m = i
    · subst hmi
      have : s.progByte m = some jfByte := hmb
      rw [hb] at this; exact absurd (Option.some.inj this) hf
    · rcases h.openPlaced m (by omega) hmb with h' | ⟨j, hj, hp⟩
      · exact .inl h'
      · exact .inr ⟨j, by omega, hp⟩
  · intro j hj' hjb
    by_cases hji : j = i
    · subst hji
      have : s.progByte j = some jbByte := hjb
      rw [hb] at this; exact absurd (Option.some.inj this) hj
    · exact h.closePlaced j (by omega) hjb
  · intro k u hk
    obtain ⟨m, j, hj, hp, hor⟩ := h.entryPaired k u hk
    exact ⟨m, j, by omega, hp, hor⟩

end Sys2Proof.Machine
end

