-- ==== Sys2Proof/Tests/Slice0.lean ====
section
/-! SUPPORT. Slice0.lean: the model's own tests. Expected values come from spec/95_test_vectors.md (the
vector's name stands in the comment) or from the rule named. Then one witness for each hypothesis of the
statements of Certificates/Slice0/Obligations.lean, named after the statement. -/

namespace Sys2Proof.Machine.Tests

open Sys2Proof Sys2Proof.Machine

/-! ## Helpers -/

/-- One field of the next state. -/
def after {α : Type} (f : State → α) : Result → Option α
  | .next t => some (f t)
  | .fault _ => none
  | .refused _ => none

/-- The model's fault, where it stops. -/
def stops : Result → Option Fault
  | .fault f => some f
  | .next _ => none
  | .refused _ => none

theorem next_of_after {o : Result} {t : State} (h : after id o = some t) : o = .next t := by
  cases o with
  | next u => simpa [after] using h
  | fault f => simp [after] at h
  | refused r => simp [after] at h

/-- Small capacities. -/
def tiny : Params := { progCap := 8, tapeCap := 4, pEof := .zero }

/-- The capacities of this hardware (R6, R7). -/
def full (e : EofPolicy) : Params := { progCap := 32768, tapeCap := 32768, pEof := e }

/-- The smallest and the largest parameters R6 and R7 allow. -/
def least : Params := { progCap := 1, tapeCap := 1, pEof := .fault }
def most : Params := { progCap := 65535, tapeCap := 65536, pEof := .unchanged }

/-- A run-phase state. -/
def runAt (prog : Memory) (len : Word) (jt : JumpTable) (pc : Word) (tape : Memory) : State :=
  { State.reset with
    params := tiny, phase := .run, loader := .scan len.toNat, progLen := len, prog := prog, jt := jt, pc := pc
    tape := tape }

/-- A one-byte program about to run. -/
def one (b : Byte) (tape : Memory) : State := runAt [(0, b)] 1#16 [] 0#16 tape

/-- `[]` loaded (J1), at `pc`. -/
def loop (pc : Word) (tape : Memory) : State :=
  runAt [(0, 0x5B#8), (1, 0x5D#8)] 2#16 [(0, 2#16), (1, 1#16)] pc tape

/-- A load-phase state during the scan. -/
def scanAt (prog : Memory) (len : Word) (i : Nat) (stk : List Word) : State :=
  { State.reset with
    params := tiny, phase := .load, loader := .scan i, progLen := len, prog := prog, stk := stk }

/-- A load-phase state during the copy. -/
def copyAt (n : Nat) (port : List LoadEvent) : State :=
  { State.reset with params := tiny, phase := .load, loader := .copy n, loadPort := port }

theorem one_fetches (b : Byte) (tape : Memory) : (one b tape).fetches b :=
  ⟨⟨rfl, rfl, rfl⟩, (by decide : (0 : Nat) < 1), rfl⟩

/-! ## Well-formedness: what the checks refuse (R64, R70) -/

theorem test_wf_refuses_nop_with_opcode_byte : (Instr.nop 0x2B#8).wf = false := by decide
theorem test_wf_accepts_nop_neighbour : (Instr.nop 0x2F#8).wf = true := by decide
/-- L4: `][`. -/
theorem test_wf_refuses_close_first : Program.wf [0x5D#8, 0x5B#8] = false := by decide
/-- L6: `[[]`. -/
theorem test_wf_refuses_unmatched_open : Program.wf [0x5B#8, 0x5B#8, 0x5D#8] = false := by decide
/-- J7: `[[][]]`. -/
theorem test_wf_accepts_nesting :
    Program.wf [0x5B#8, 0x5B#8, 0x5D#8, 0x5B#8, 0x5D#8, 0x5D#8] = true := by decide
/-- L10, R153: the cut after `[` leaves it unmatched. -/
theorem test_wf_checks_after_truncation :
    Program.loadable 2 [0x2B#8, 0x5B#8, 0x5D#8] = false ∧ Program.loadable 3 [0x2B#8, 0x5B#8, 0x5D#8] = true := by
  decide
theorem test_params_wf_bounds :
    least.wf = true ∧ most.wf = true ∧ { least with progCap := 0 }.wf = false
      ∧ { least with tapeCap := 0 }.wf = false ∧ { most with progCap := 65536 }.wf = false
      ∧ { most with tapeCap := 65537 }.wf = false := by decide
theorem test_memory_wf_refuses :
    Memory.wf [(1, 0#8)] = false ∧ Memory.wf [(2, 1#8), (1, 1#8)] = false ∧ Memory.wf [(1, 1#8), (2, 1#8)] = true := by
  decide

/-! ## Decoding: the bits written out from spec/opcode_table.json -/

theorem test_decode_inc : decodeTableWord 8 0b00101011 = some .inc := by decide
theorem test_decode_dec : decodeTableWord 8 0b00101101 = some .dec := by decide
theorem test_decode_right : decodeTableWord 8 0b00111110 = some .right := by decide
theorem test_decode_left : decodeTableWord 8 0b00111100 = some .left := by decide
theorem test_decode_jf : decodeTableWord 8 0b01011011 = some .jf := by decide
theorem test_decode_jb : decodeTableWord 8 0b01011101 = some .jb := by decide
theorem test_decode_write : decodeTableWord 8 0b00101110 = some .write := by decide
theorem test_decode_read : decodeTableWord 8 0b00101100 = some .read := by decide
theorem test_decode_nop : decodeTableWord 8 0b00000000 = some (.nop 0#8) := by decide
/-- Section 2.1: the neighbours of the opcodes and the opcodes with bit 7 set. -/
theorem test_decode_neighbours :
    ([0x2A#8, 0x2F#8, 0x3B#8, 0x3D#8, 0x3F#8, 0x5A#8, 0x5C#8, 0x5E#8, 0xAB#8, 0xAD#8, 0xBE#8, 0xBC#8, 0xDB#8,
      0xDD#8, 0xAE#8, 0xAC#8, 0xFF#8].all fun b => decide (decode b = .nop b)) = true := by decide
theorem test_encode_bytes :
    encodeProgram [.inc, .dec, .right, .left, .jf, .jb, .write, .read, .nop 0x61#8]
      = [0x2B#8, 0x2D#8, 0x3E#8, 0x3C#8, 0x5B#8, 0x5D#8, 0x2E#8, 0x2C#8, 0x61#8] := by decide
theorem test_decode_rejects_nothing_to_read : decodeBytes [] = .rejected .noByte := by decide

/-! ## The instructions, one step each -/

/-- A4. -/
theorem test_inc_wraps : after (fun t => (t.currentCell, t.pc)) (step (one 0x2B#8 [(0, 0xFF#8)])) = some (0#8, 1#16) := by
  decide
/-- A2. -/
theorem test_inc_past_sign : after State.tape (step (one 0x2B#8 [(0, 0x7F#8)])) = some [(0, 0x80#8)] := by decide
/-- A7. -/
theorem test_dec_wraps : after (fun t => (t.tape, t.pc)) (step (one 0x2D#8 [])) = some ([(0, 0xFF#8)], 1#16) := by decide
/-- A5: the cell that becomes 0 leaves the list. -/
theorem test_dec_to_zero : after State.tape (step (one 0x2D#8 [(0, 1#8), (3, 7#8)])) = some [(3, 7#8)] := by decide
/-- T3. -/
theorem test_right_wraps :
    after State.dp (exec .right { State.reset with params := full .zero, dp := 0x7FFF#16 }) = some 0#16 := by decide
/-- T8. -/
theorem test_right_on_one_cell : after State.dp (exec .right { State.reset with params := least }) = some 0#16 := by
  decide
/-- T5. -/
theorem test_left_wraps :
    after State.dp (exec .left { State.reset with params := full .zero }) = some 0x7FFF#16 := by decide
/-- T4. -/
theorem test_left_plain :
    after State.dp (exec .left { State.reset with params := full .zero, dp := 1#16 }) = some 0#16 := by decide
/-- J1. -/
theorem test_jf_jumps : after State.pc (step (loop 0#16 [])) = some 2#16 := by decide
/-- J8. -/
theorem test_jf_miss :
    after (fun t => (t.phase, t.cause, t.pc)) (step (one 0x5B#8 [])) = some (.faulted, .jtMiss, 1#16) := by decide
/-- J2. -/
theorem test_jb_jumps_back : after State.pc (step (loop 1#16 [(0, 1#8)])) = some 1#16 := by decide
/-- J3, step 4. -/
theorem test_jb_falls_through : after State.pc (step (loop 1#16 [])) = some 2#16 := by decide
/-- R120. -/
theorem test_write_emits :
    after (fun t => (t.outStream, t.pc)) (step (one 0x2E#8 [(0, 0x48#8)])) = some ([0x48#8], 1#16) := by decide
/-- R56: the hold keeps `pc` advanced. -/
theorem test_write_holds :
    after (fun t => (t.outStream, t.pc, t.hold)) (step { one 0x2E#8 [(0, 0x48#8)] with outReady := false })
      = some ([], 1#16, .output 0x48#8) := by decide
/-- IO4, one byte of two taken. -/
theorem test_read_stores :
    after (fun t => (t.tape, t.inPort)) (step { one 0x2C#8 [] with inPort := [0xFF#8, 1#8] })
      = some ([(0, 0xFF#8)], [1#8]) := by decide
/-- IO5 to IO8. -/
theorem test_read_at_end :
    ([EofPolicy.unchanged, .zero, .allOnes, .fault].map fun e =>
      after (fun t => (t.currentCell, t.phase, t.cause))
        (step { one 0x2C#8 [(0, 1#8)] with params := full e, inEnded := true }))
      = [some (1#8, .run, .none), some (0#8, .run, .none), some (0xFF#8, .run, .none),
          some (1#8, .faulted, .inputEnd)] := by decide
/-- S4: 0x00 is a NOP. -/
theorem test_nop_advances :
    after (fun t => (t.pc, t.tape)) (step (one 0#8 [(0, 5#8)])) = some (1#16, [(0, 5#8)]) := by decide

/-! ## The loader and the status register -/

/-- V11: `[][]` gives `JT[0]=2, JT[1]=1, JT[2]=4, JT[3]=3`. -/
theorem test_scan_fills_table :
    after (fun t => (t.phase, t.jt)) (runSteps 5
      (scanAt [(0, 0x5B#8), (1, 0x5D#8), (2, 0x5B#8), (3, 0x5D#8)] 4#16 0 []))
      = some (.run, [(0, 2#16), (1, 1#16), (2, 4#16), (3, 3#16)]) := by decide
/-- L9: the I/O error wins over the `]` before it. -/
theorem test_load_error_first :
    after State.cause (runSteps 3 { bootState tiny [] with loadPort := [.byte 0x5D#8, .error] }) = some .loadIoError := by
  decide
/-- R30: FAULTED with UNBALANCED_OPEN is 0b00_011_100. -/
theorem test_status_bits : ({ State.reset with phase := .faulted, cause := .unbalancedOpen }).status = 0b00011100#8 := by
  decide
/-- P2's first step: `<` placed as the first instruction after reset. -/
theorem test_placed_word_runs :
    after (fun t => (t.pc, t.dp)) (step (State.reset.withFetchWord 8 0x3C)) = some (1#16, 0x7FFF#16) := by decide

/-! ## States that meet the invariant -/

theorem tiny_wf : tiny.wf = true := by decide

/-- A block of the smallest capacities right after reset. -/
theorem least_reset_inv : ({ State.reset with params := least }).Inv where
  paramsWf := by decide
  dpBound := (by decide : (0 : Nat) < 1)
  pcBound := Nat.le_refl _
  lenBound := Nat.zero_le _
  tapeWf := rfl
  tapeBound := by intro c hc; cases hc
  progRising := rfl
  progBound := by intro c hc; cases hc
  jtRising := rfl
  jtBound := by intro c hc; cases hc
  causeFaulted := by decide
  noJtMiss := by decide
  holdInRun := fun h => absurd rfl h
  inReset := fun _ => ⟨⟨rfl, rfl, rfl⟩, rfl, Nat.zero_le _, rfl, rfl, rfl, fun a ha => absurd ha (Nat.not_lt_zero a)⟩
  inLoad := by intro h; cases h
  inRun := by intro h; cases h
  inHalted := by intro h; cases h

theorem loop_prog (pc : Word) (tape : Memory) (a : Nat) :
    (loop pc tape).progByte a = if 0 = a then some 0x5B#8 else if 1 = a then some 0x5D#8 else none := rfl

theorem loop_jt (pc : Word) (tape : Memory) (k : Nat) :
    (loop pc tape).jtTarget k = if 0 = k then some 2#16 else if 1 = k then some 1#16 else none := rfl

theorem loop_paired (pc : Word) (tape : Memory) : (loop pc tape).paired 0 1 := ⟨by decide, rfl, rfl, rfl, rfl⟩

theorem loop_loaded (pc : Word) (tape : Memory) : (loop pc tape).loaded := by
  refine ⟨rfl, fun a ha => ?_, ?_⟩
  · change a < 2 at ha
    interval_cases a
    · exact ⟨_, rfl⟩
    · exact ⟨_, rfl⟩
  · constructor
    · intro p hp; cases hp
    · exact List.Pairwise.nil
    · intro m hm hb
      change m < 2 at hm
      interval_cases m
      · exact .inr ⟨1, (by decide : (1 : Nat) < 2), loop_paired pc tape⟩
      · exact absurd (Option.some.inj hb) (by decide)
    · intro j hj hb
      change j < 2 at hj
      interval_cases j
      · exact absurd (Option.some.inj hb) (by decide)
      · exact ⟨0, loop_paired pc tape⟩
    · intro k t hk
      rw [loop_jt] at hk
      refine ⟨0, 1, (by decide : (1 : Nat) < 2), loop_paired pc tape, ?_⟩
      split at hk
      · omega
      · split at hk
        · omega
        · cases hk

/-- The loop `[]` in its run meets the invariant, whatever its tape. -/
theorem loop_inv {pc : Word} {tape : Memory} (hpc : pc.toNat ≤ 2) (hw : Memory.wf tape = true)
    (hb : ∀ c ∈ tape, c.1 < 4) : (loop pc tape).Inv where
  paramsWf := tiny_wf
  dpBound := (by decide : (0 : Nat) < 4)
  pcBound := hpc
  lenBound := (by decide : (2 : Nat) ≤ 8)
  tapeWf := hw
  tapeBound := hb
  progRising := rfl
  progBound := (by decide : ∀ c ∈ ([(0, 0x5B#8), (1, 0x5D#8)] : Memory), c.1 < 8)
  jtRising := rfl
  jtBound := (by decide : ∀ c ∈ ([(0, 2#16), (1, 1#16)] : JumpTable), c.1 < 8)
  causeFaulted := (by decide : Cause.none ≠ .none ↔ Phase.run = .faulted)
  noJtMiss := by intro h; cases h
  holdInRun := fun h => absurd rfl h
  inReset := by intro h; cases h
  inLoad := by intro h; cases h
  inRun := fun _ => loop_loaded pc tape
  inHalted := by intro h; cases h

theorem loop_zero_inv {pc : Word} (hpc : pc.toNat ≤ 2) : (loop pc []).Inv := loop_inv hpc rfl (by decide)
theorem loop_one_inv {pc : Word} (hpc : pc.toNat ≤ 2) : (loop pc [(0, 1#8)]).Inv := loop_inv hpc rfl (by decide)

/-- The empty program in its run (S1). -/
theorem empty_inv : (runAt [] 0#16 [] 0#16 []).Inv where
  paramsWf := tiny_wf
  dpBound := (by decide : (0 : Nat) < 4)
  pcBound := Nat.le_refl _
  lenBound := Nat.zero_le _
  tapeWf := rfl
  tapeBound := by intro c hc; cases hc
  progRising := rfl
  progBound := by intro c hc; cases hc
  jtRising := rfl
  jtBound := by intro c hc; cases hc
  causeFaulted := (by decide : Cause.none ≠ .none ↔ Phase.run = .faulted)
  noJtMiss := by intro h; cases h
  holdInRun := fun h => absurd rfl h
  inReset := by intro h; cases h
  inLoad := by intro h; cases h
  inRun := fun _ => ⟨rfl, fun a ha => absurd ha (Nat.not_lt_zero a), State.scannedTo_zero rfl fun _ => rfl⟩
  inHalted := by intro h; cases h

/-- A scan state meets the invariant when its scan does. -/
theorem scan_inv {prog : Memory} {len : Word} {i : Nat} {stk : List Word} (hl : len.toNat ≤ 8)
    (hr : Sparse.rising prog = true) (hb : ∀ c ∈ prog, c.1 < 8) (hs : (scanAt prog len i stk).scanning i) :
    (scanAt prog len i stk).Inv where
  paramsWf := tiny_wf
  dpBound := (by decide : (0 : Nat) < 4)
  pcBound := Nat.zero_le _
  lenBound := hl
  tapeWf := rfl
  tapeBound := by intro c hc; cases hc
  progRising := hr
  progBound := hb
  jtRising := rfl
  jtBound := by intro c hc; cases hc
  causeFaulted := (by decide : Cause.none ≠ .none ↔ Phase.load = .faulted)
  noJtMiss := by intro h; cases h
  holdInRun := fun h => absurd rfl h
  inReset := by intro h; cases h
  inLoad := fun _ => ⟨⟨rfl, rfl, rfl⟩, hs⟩
  inRun := by intro h; cases h
  inHalted := by intro h; cases h

/-- The scan of a one-byte program before its byte. -/
theorem scan_start_inv (b : Byte) : (scanAt [(0, b)] 1#16 0 []).Inv := by
  refine scan_inv (by decide) rfl (by simp) ⟨Nat.zero_le _, fun a ha => ?_, State.scannedTo_zero rfl fun _ => rfl⟩
  change a < 1 at ha
  interval_cases a
  exact ⟨b, rfl⟩

/-- The scan of `[` behind its byte (L5). -/
theorem scan_open_inv : (scanAt [(0, 0x5B#8)] 1#16 1 [0#16]).Inv := by
  refine scan_inv (by decide) rfl (by simp) ⟨by decide, fun a ha => ?_, ?_⟩
  · change a < 1 at ha
    interval_cases a
    exact ⟨_, rfl⟩
  · exact State.scannedTo_open (s := scanAt [(0, 0x5B#8)] 1#16 0 []) (State.scannedTo_zero rfl fun _ => rfl)
      (by decide) rfl (.scan 1)

/-- The scan of `[]` between its bytes. -/
theorem scan_pair_inv : (scanAt [(0, 0x5B#8), (1, 0x5D#8)] 2#16 1 [0#16]).Inv := by
  refine scan_inv (by decide) rfl (by decide) ⟨by decide, fun a ha => ?_, ?_⟩
  · change a < 2 at ha
    interval_cases a
    · exact ⟨_, rfl⟩
    · exact ⟨_, rfl⟩
  · exact State.scannedTo_open (s := scanAt [(0, 0x5B#8), (1, 0x5D#8)] 2#16 0 [])
      (State.scannedTo_zero rfl fun _ => rfl) (by decide) rfl (.scan 1)

/-- The scan of an empty program (L12). -/
theorem scan_empty_inv : (scanAt [] 0#16 0 []).Inv :=
  scan_inv (by decide) rfl (by decide) ⟨Nat.le_refl _, fun a ha => absurd ha (Nat.not_lt_zero a),
    State.scannedTo_zero rfl fun _ => rfl⟩

/-- A run that has failed at the last byte of a full program memory. -/
def lastByteFailed : State :=
  { State.reset with
    params := full .fault, phase := .faulted, cause := .inputEnd, progLen := 0x8000#16, pc := 0x8000#16
    dp := 0x7FFF#16 }

theorem lastByteFailed_inv : lastByteFailed.Inv where
  paramsWf := by decide
  dpBound := (by decide : (0x7FFF#16).toNat < 32768)
  pcBound := Nat.le_refl _
  lenBound := (by decide : (0x8000#16).toNat ≤ 32768)
  tapeWf := rfl
  tapeBound := by intro c hc; cases hc
  progRising := rfl
  progBound := by intro c hc; cases hc
  jtRising := rfl
  jtBound := by intro c hc; cases hc
  causeFaulted := by decide
  noJtMiss := by decide
  holdInRun := fun h => absurd rfl h
  inReset := by intro h; cases h
  inLoad := by intro h; cases h
  inRun := by intro h; cases h
  inHalted := by intro h; cases h

/-! ## Witnesses: encoding, reset, the step -/

theorem witness_DecoderTakesExactlyOneByte : (Instr.nop 0xFF#8).wf = true := by decide

theorem witness_DecodeAndEncodeAgreeOnPrograms : ∀ i ∈ [Instr.jf, .nop 0#8, .jb], i.wf = true := by decide

theorem witness_ResetAbandonsTheRun :
    ({ loop 1#16 [(0, 1#8)] with rst := true }).rst = true ∧ State.reset.rst = false ∧ State.reset.phase = .reset := by
  decide

theorem witness_StepRunsTheDecodedInstruction : (one 0x5D#8 [(0, 1#8)]).fetches 0x5D#8 := one_fetches _ _

theorem witness_NextPcHasTwoSources :
    (loop 1#16 [(0, 1#8)]).fetches 0x5D#8 ∧ step (loop 1#16 [(0, 1#8)]) = .next (loop 1#16 [(0, 1#8)]) :=
  ⟨⟨⟨rfl, rfl, rfl⟩, by decide, rfl⟩, next_of_after (by decide)⟩

theorem witness_ProgramEndHalts :
    ((loop 2#16 []).running ∧ (loop 2#16 []).pc = (loop 2#16 []).progLen)
    ∧ (loop 3#16 []).running ∧ (loop 3#16 []).progLen.toNat < (loop 3#16 []).pc.toNat :=
  ⟨⟨⟨rfl, rfl, rfl⟩, rfl⟩, ⟨rfl, rfl, rfl⟩, by decide⟩

theorem witness_EmptyProgramHaltsAtOnce :
    (runAt [] 0#16 [] 0#16 []).Inv ∧ (runAt [] 0#16 [] 0#16 []).running
    ∧ (runAt [] 0#16 [] 0#16 []).progLen = 0#16 := ⟨empty_inv, ⟨rfl, rfl, rfl⟩, rfl⟩

/-- For every statement over all parameters. -/
theorem witness_parameters : least.wf = true ∧ most.wf = true := by decide

theorem witness_NothingExecutesOutsideRun :
    (scanAt [] 0#16 0 []).rst = false ∧ (scanAt [] 0#16 0 []).phase ≠ .run
    ∧ step (scanAt [] 0#16 0 []) = .next ((scanAt [] 0#16 0 []).setStatus .run .none)
    ∧ lastByteFailed.rst = false ∧ (lastByteFailed.phase = .halted ∨ lastByteFailed.phase = .faulted) :=
  ⟨rfl, by decide, rfl, rfl, .inr rfl⟩

theorem witness_RunEndsExactlyInHaltedOrFaulted :
    (lastByteFailed.rst = false ∧ lastByteFailed.verdict ≠ .notFinished)
    ∧ ({ one 0x2C#8 [] with hold := .input }).rst = false ∧ ({ one 0x2C#8 [] with hold := .input }).phase = .run
    ∧ ({ one 0x2C#8 [] with hold := .input }).inPort = []
    ∧ ({ one 0x2C#8 [] with hold := .input }).inEnded = false := by decide

/-- One state for each of the five transitions. -/
theorem witness_PhaseChangesOnlyAtItsTransitions :
    ([{ loop 1#16 [] with rst := true }, State.reset, scanAt [] 0#16 0 [], loop 2#16 [], one 0x5B#8 []].map
      fun s => (s.phase, after State.phase (step s)))
    = [(.run, some .reset), (.reset, some .load), (.load, some .run), (.run, some .halted), (.run, some .faulted)] := by
  decide

theorem witness_StatusFieldsHaveTheSpecCodes :
    (loop 0#16 []).Inv ∧ (loop 0#16 []).status.extractLsb' 0 3 ≠ 4#3 := ⟨loop_zero_inv (by decide), by decide⟩

/-! ## Witnesses: the instructions -/

theorem witness_NopOnlyAdvancesPc : (one 0#8 []).fetches 0#8 ∧ decode 0#8 = .nop 0#8 := ⟨one_fetches _ _, by decide⟩

theorem witness_NopOnlyAdvancesPc_stretch :
    (one 0#8 []).running ∧ (one 0#8 []).pc.toNat ≤ (one 0#8 []).progLen.toNat
    ∧ ∀ a, (one 0#8 []).pc.toNat ≤ a → a < (one 0#8 []).progLen.toNat →
        ∃ b, (one 0#8 []).progByte a = some b ∧ decode b = .nop b := by
  refine ⟨⟨rfl, rfl, rfl⟩, by decide, fun a _ ha => ?_⟩
  change a < 1 at ha
  interval_cases a
  exact ⟨0#8, rfl, by decide⟩

/-- For INC, DEC and READ: a readable current cell, at the first and at the last address. -/
theorem witness_cell_access :
    (Memory.wf (one 0#8 [(0, 0xFF#8)]).tape = true ∧ (one 0#8 [(0, 0xFF#8)]).dpInRange)
    ∧ Memory.wf { one 0#8 [] with dp := 3#16 }.tape = true ∧ State.dpInRange { one 0#8 [] with dp := 3#16 } :=
  ⟨⟨by decide, (by decide : (0 : Nat) < 4)⟩, by decide, (by decide : (3 : Nat) < 4)⟩

/-- Also for LEFT and RIGHT. -/
theorem witness_PointerMovesAreCyclic :
    ({ State.reset with params := least }).params.wf = true ∧ State.dpInRange { State.reset with params := least } :=
  ⟨by decide, (by decide : (0 : Nat) < 1)⟩

/-- JF at `[` of the loop: falls through, jumps; without an entry it misses. -/
theorem witness_JfJumpsOnZeroCell :
    (loop 1#16 [(0, 1#8)]).dpInRange ∧ (loop 1#16 [(0, 1#8)]).currentCell ≠ 0#8
    ∧ (loop 1#16 []).currentCell = 0#8 ∧ (loop 1#16 []).jtTarget ((loop 1#16 []).pc - 1#16).toNat = some 2#16
    ∧ (one 0x5B#8 []).currentCell = 0#8
    ∧ (one 0x5B#8 []).jtTarget ((one 0x5B#8 []).pc - 1#16).toNat = none :=
  ⟨(by decide : (0 : Nat) < 4), by decide, by decide, by decide, by decide, by decide⟩

/-- JB at `]` of the loop: falls through, jumps; without an entry it misses. -/
theorem witness_JbJumpsOnNonZeroCell :
    (loop 2#16 []).dpInRange ∧ (loop 2#16 []).currentCell = 0#8
    ∧ (loop 2#16 [(0, 1#8)]).currentCell ≠ 0#8
    ∧ (loop 2#16 [(0, 1#8)]).jtTarget ((loop 2#16 [(0, 1#8)]).pc - 1#16).toNat = some 1#16
    ∧ (one 0x5D#8 [(0, 1#8)]).currentCell ≠ 0#8
    ∧ (one 0x5D#8 [(0, 1#8)]).jtTarget ((one 0x5D#8 [(0, 1#8)]).pc - 1#16).toNat = none :=
  ⟨(by decide : (0 : Nat) < 4), by decide, by decide, by decide, by decide, by decide⟩

theorem loop_fetches_open (tape : Memory) : (loop 0#16 tape).fetches 0x5B#8 :=
  ⟨⟨rfl, rfl, rfl⟩, (by decide : (0 : Nat) < 2), rfl⟩
theorem loop_fetches_close (tape : Memory) : (loop 1#16 tape).fetches 0x5D#8 :=
  ⟨⟨rfl, rfl, rfl⟩, (by decide : (1 : Nat) < 2), rfl⟩

/-- Also for EmptyLoopRunsForever: the second clause's target is the `]` itself. -/
theorem witness_JumpKeyIsTheBracketsPosition :
    ((loop 0#16 []).fetches 0x5B#8 ∧ (loop 0#16 []).dpInRange ∧ (loop 0#16 []).currentCell = 0#8
      ∧ (loop 0#16 []).jtTarget (loop 0#16 []).pc.toNat = some 2#16)
    ∧ (loop 1#16 [(0, 1#8)]).fetches 0x5D#8 ∧ (loop 1#16 [(0, 1#8)]).dpInRange
      ∧ (loop 1#16 [(0, 1#8)]).currentCell ≠ 0#8
      ∧ (loop 1#16 [(0, 1#8)]).jtTarget (loop 1#16 [(0, 1#8)]).pc.toNat = some (loop 1#16 [(0, 1#8)]).pc :=
  ⟨⟨loop_fetches_open _, (by decide : (0 : Nat) < 4), by decide, by decide⟩, loop_fetches_close _,
    (by decide : (0 : Nat) < 4), by decide, by decide⟩

theorem witness_BracketsResumeBehindTheirPartners :
    ((loop 0#16 []).Inv ∧ (loop 0#16 []).fetches 0x5B#8 ∧ (loop 0#16 []).currentCell = 0#8)
    ∧ ((loop 1#16 [(0, 1#8)]).Inv ∧ (loop 1#16 [(0, 1#8)]).fetches 0x5D#8 ∧ (loop 1#16 [(0, 1#8)]).currentCell ≠ 0#8)
    ∧ ((loop 0#16 [(0, 1#8)]).Inv ∧ (loop 0#16 [(0, 1#8)]).fetches 0x5B#8 ∧ (loop 0#16 [(0, 1#8)]).currentCell ≠ 0#8)
    ∧ (loop 1#16 []).Inv ∧ (loop 1#16 []).fetches 0x5D#8 ∧ (loop 1#16 []).currentCell = 0#8 :=
  ⟨⟨loop_zero_inv (by decide), loop_fetches_open _, by decide⟩,
    ⟨loop_one_inv (by decide), loop_fetches_close _, by decide⟩,
    ⟨loop_one_inv (by decide), loop_fetches_open _, by decide⟩,
    loop_zero_inv (by decide), loop_fetches_close _, by decide⟩

theorem witness_WriteEmitsTheCurrentCell :
    (one 0x2E#8 [(0, 0xFF#8)]).dpInRange ∧ (one 0x2E#8 [(0, 0xFF#8)]).outReady = true
    ∧ ({ one 0x2E#8 [(0, 0xFF#8)] with outReady := false }).outReady = false :=
  ⟨(by decide : (0 : Nat) < 4), rfl, rfl⟩

/-- Its three cases on `witness_cell_access`'s state, and each `P_EOF` in the last. -/
theorem witness_ReadTakesOneInputEvent :
    ({ one 0x2C#8 [] with inPort := [0#8] }).inPort = 0#8 :: []
    ∧ ((one 0x2C#8 []).inPort = [] ∧ (one 0x2C#8 []).inEnded = false)
    ∧ ∀ e, ({ one 0x2C#8 [] with inEnded := true, params := full e }).inPort = []
        ∧ ({ one 0x2C#8 [] with inEnded := true, params := full e }).inEnded = true
        ∧ ({ one 0x2C#8 [] with inEnded := true, params := full e }).params.pEof = e :=
  ⟨rfl, ⟨rfl, rfl⟩, fun _ => ⟨rfl, rfl, rfl⟩⟩

/-- Each instruction gives a next state somewhere. -/
theorem witness_ExecFrameOfEveryInstruction :
    ([Instr.inc, .dec, .right, .left, .jf, .jb, .write, .read, .nop 0#8].all fun i =>
      (after id (exec i { loop 1#16 [] with inPort := [1#8] })).isSome) = true := by decide

theorem witness_AccessOutsideTheTapeStops :
    ¬ State.dpInRange { one 0#8 [] with dp := 4#16 }
    ∧ ({ one 0#8 [] with dp := 4#16, inPort := [1#8] }).inPort = 1#8 :: []
    ∧ ({ one 0#8 [] with dp := 4#16, inEnded := true }).params.pEof = .zero :=
  ⟨(by decide : ¬ (4 : Nat) < 4), rfl, rfl⟩

/-! ## Witnesses: the ports -/

/-- The last byte that fits is taken; the scan does not read the port; without an event the loader holds. -/
theorem witness_LoadPortIsReadOnlyByTheCopy :
    after State.loadPort (step (copyAt 7 [.byte 1#8, .ended])) = some [.ended]
    ∧ ((scanAt [] 0#16 0 []).rst = false ∧ (scanAt [] 0#16 0 []).loader = .scan 0
      ∧ (after id (step (scanAt [] 0#16 0 []))).isSome = true)
    ∧ (copyAt 7 []).rst = false ∧ (copyAt 7 []).phase = .load ∧ (copyAt 7 []).loader = .copy 7
      ∧ 7 < (copyAt 7 []).params.progCap ∧ (copyAt 7 []).loadPort = [] := by decide

theorem witness_InputPortIsReadOnlyByRead :
    after State.inPort (step { one 0x2C#8 [] with inPort := [0#8] }) = some []
    ∧ ({ one 0x2C#8 [] with hold := .input }).rst = false ∧ ({ one 0x2C#8 [] with hold := .input }).phase = .run
    ∧ ({ one 0x2C#8 [] with hold := .input }).inPort = [] ∧ ({ one 0x2C#8 [] with hold := .input }).inEnded = false := by
  decide

theorem witness_EndOfInputIsForever :
    ({ one 0x2C#8 [] with inEnded := true }).inPort = [] ∧ ({ one 0x2C#8 [] with inEnded := true }).inEnded = true
    ∧ (after id (step { one 0x2C#8 [] with inEnded := true })).isSome = true
    ∧ ({ one 0x2C#8 [] with inEnded := true }).rst = false := by decide

/-- A WRITE that is accepted, one that is not, and its hold before and after the host accepts. -/
theorem witness_OutputPortIsWrittenOnlyByWrite :
    after State.outStream (step (one 0x2E#8 [])) = some [0#8]
    ∧ ({ one 0x2E#8 [] with outReady := false }).fetches 0x2E#8
    ∧ State.dpInRange { one 0x2E#8 [] with outReady := false }
    ∧ ({ one 0x2E#8 [] with outReady := false, hold := .output 0#8 }).phase = .run
    ∧ after State.outStream (step { one 0x2E#8 [] with hold := .output 0xFF#8 }) = some [0xFF#8] :=
  ⟨by decide, ⟨⟨rfl, rfl, rfl⟩, by decide, rfl⟩, (by decide : (0 : Nat) < 4), rfl, by decide⟩

/-! ## Witnesses: ownership and bounds -/

/-- `dp` written by RIGHT and by reset; bit 15 at the largest `dp`. -/
theorem witness_OnlyPointerMovesWriteDp :
    after State.dp (step (one 0x3E#8 [])) = some 1#16
    ∧ after State.dp (step { one 0#8 [] with dp := 3#16, rst := true }) = some 0#16
    ∧ lastByteFailed.Inv ∧ lastByteFailed.params.tapeCap = 32768 := ⟨by decide, by decide, lastByteFailed_inv, rfl⟩

theorem witness_PcNeverWraps :
    ((loop 1#16 []).Inv ∧ (loop 1#16 []).fetches 0x5D#8 ∧ (after id (step (loop 1#16 []))).isSome = true)
    ∧ lastByteFailed.Inv ∧ lastByteFailed.params.progCap = 32768 ∧ lastByteFailed.pc.toNat = 0x8000 :=
  ⟨⟨loop_zero_inv (by decide), loop_fetches_close _, by decide⟩, lastByteFailed_inv, rfl, rfl⟩

/-- Also for StepLeavesParametersRstInputEndAndReadiness. -/
theorem witness_EngineAndLoaderOwnTheirState :
    ((copyAt 0 []).rst = false ∧ (copyAt 0 []).phase ≠ .run ∧ (after id (step (copyAt 0 []))).isSome = true)
    ∧ (one 0x2B#8 []).rst = false ∧ (one 0x2B#8 []).phase ≠ .load
      ∧ (after id (step (one 0x2B#8 []))).isSome = true := by decide

/-- The stack as deep as the program is long. -/
theorem witness_BracketStackCannotOverflow :
    (scanAt [(0, 0x5B#8)] 1#16 1 [0#16]).Inv ∧ (scanAt [(0, 0x5B#8)] 1#16 1 [0#16]).phase ≠ .faulted
    ∧ (scanAt [(0, 0x5B#8)] 1#16 1 [0#16]).stk.length = (scanAt [(0, 0x5B#8)] 1#16 1 [0#16]).progLen.toNat :=
  ⟨scan_open_inv, by decide, rfl⟩

/-! ## Witnesses: faults and the load phase -/

theorem witness_FaultsArePreciseAndFinal :
    ((one 0x5B#8 []).fetches 0x5B#8 ∧ after State.phase (step (one 0x5B#8 [])) = some .faulted)
    ∧ after (fun t => (t.phase, t.hold))
        (step { one 0x2C#8 [] with hold := .input, inEnded := true, params := full .fault }) = some (.faulted, .free)
    ∧ ((scanAt [(0, 0x5D#8)] 1#16 0 []).Inv
      ∧ after State.phase (step (scanAt [(0, 0x5D#8)] 1#16 0 [])) = some .faulted)
    ∧ lastByteFailed.rst = false ∧ lastByteFailed.phase = .faulted :=
  ⟨⟨one_fetches _ _, by decide⟩, by decide, ⟨scan_start_inv _, by decide⟩, rfl, rfl⟩

theorem witness_LoadErrorComesFirst : least.wf = true ∧ ([] : List Byte).length < least.progCap := by decide

/-- Full, and one short of it with each kind of event and none. -/
theorem witness_LoaderCopiesTheProgram :
    (tiny.progCap ≤ 8 ∧ 7 < tiny.progCap)
    ∧ ([[], [.byte 1#8], [.ended], [.error]].map fun l => after State.loader (step (copyAt 7 l)))
      = [some (.copy 7), some (.copy 8), some (.scan 0), some (.copy 7)]
    ∧ after (fun t => (t.loader, t.progLen)) (step (copyAt 8 [.byte 1#8])) = some (.scan 0, 8#16) := by decide

/-- One state for each case of the scan. -/
theorem witness_ScanResolvesTheJumps :
    ((scanAt [(0, 0x5B#8)] 1#16 0 []).Inv ∧ (scanAt [(0, 0x5B#8)] 1#16 0 []).progByte 0 = some 0x5B#8)
    ∧ ((scanAt [(0, 0x5B#8), (1, 0x5D#8)] 2#16 1 [0#16]).Inv
      ∧ (scanAt [(0, 0x5B#8), (1, 0x5D#8)] 2#16 1 [0#16]).progByte 1 = some 0x5D#8)
    ∧ ((scanAt [(0, 0x5D#8)] 1#16 0 []).Inv ∧ (scanAt [(0, 0x5D#8)] 1#16 0 []).progByte 0 = some 0x5D#8)
    ∧ ((scanAt [(0, 0x61#8)] 1#16 0 []).Inv ∧ (scanAt [(0, 0x61#8)] 1#16 0 []).progByte 0 = some 0x61#8)
    ∧ (scanAt [(0, 0x5B#8)] 1#16 1 [0#16]).Inv ∧ (scanAt [(0, 0x5B#8)] 1#16 1 [0#16]).stk ≠ [] :=
  ⟨⟨scan_start_inv _, rfl⟩, ⟨scan_pair_inv, rfl⟩, ⟨scan_start_inv _, rfl⟩, ⟨scan_start_inv _, rfl⟩, scan_open_inv,
    by decide⟩

theorem witness_ScanEndEntersTheRunPhase :
    (scanAt [] 0#16 0 []).Inv ∧ (scanAt [] 0#16 0 []).rst = false ∧ (scanAt [] 0#16 0 []).phase = .load
    ∧ (scanAt [] 0#16 0 []).loader = .scan 0 ∧ (scanAt [] 0#16 0 []).progLen.toNat ≤ 0
    ∧ (scanAt [] 0#16 0 []).stk = [] := ⟨scan_empty_inv, rfl, rfl, rfl, Nat.le_refl _, rfl⟩

theorem witness_LongSourceIsTruncated :
    (least.wf = true ∧ least.progCap ≤ [0x5B#8, 0x5D#8].length) ∧ Program.wf [0x5B#8, 0x5D#8] = true
    ∧ after State.loadPort (runSteps 6 (bootState least [0x2B#8, 0x5D#8])) = some [.byte 0x5D#8, .ended] := by decide

/-- Also for LoadedJumpTableIsComplete and LoadedPairsEncloseBalancedText: a text that fits and one that is
cut; the last two texts are refused. -/
theorem witness_LoadSucceedsExactlyWhenBalanced :
    (tiny.wf = true ∧ Program.loadable tiny.progCap [0x5B#8, 0x2B#8, 0x5D#8] = true)
    ∧ (least.wf = true ∧ Program.loadable least.progCap [0x2B#8, 0x5D#8] = true)
    ∧ Program.loadable tiny.progCap [0x5D#8, 0x5B#8] = false
    ∧ Program.loadable least.progCap [0x5B#8, 0x5D#8] = false := by decide

theorem witness_JumpTargetsStayInTheProgram :
    (loop 0#16 []).Inv ∧ (loop 0#16 []).phase = .run ∧ (loop 0#16 []).paired 0 1
    ∧ (loop 0#16 []).jtTarget 0 = some 2#16 := ⟨loop_zero_inv (by decide), rfl, loop_paired _ _, rfl⟩

/-! ## Witnesses: the invariant and the placed word -/

/-- Also for EveryHostMoveKeepsTheInvariant and StepNeverStopsUnderTheInvariant: one state in each phase. -/
theorem witness_EveryStepKeepsTheInvariant :
    ({ State.reset with params := least }).Inv ∧ (scanAt [] 0#16 0 []).Inv ∧ (loop 2#16 []).Inv ∧ lastByteFailed.Inv
    ∧ (after id (step (loop 2#16 []))).isSome = true :=
  ⟨least_reset_inv, scan_empty_inv, loop_zero_inv (by decide), lastByteFailed_inv, by decide⟩

theorem witness_PlacedWordIsTheNextInstruction : ({ State.reset with pc := 65534#16 }).pc.toNat < 65535 := by decide

end Sys2Proof.Machine.Tests
end

section
/-! SUPPORT. What the load of a source leaves: the program text in program memory (R152, R153), and a jump table
whose pairs are the matching brackets of that text (R155, R70). -/

namespace Sys2Proof

/-! ## Bracket depth -/

@[simp] theorem jbByte_ne_jfByte : jbByte ≠ jfByte := by decide

@[simp] theorem bracketDepth_nil (d : Nat) : bracketDepth [] d = some d := rfl

@[simp] theorem bracketDepth_open (rest : List Byte) (d : Nat) :
    bracketDepth (jfByte :: rest) d = bracketDepth rest (d + 1) := by
  simp [bracketDepth]

@[simp] theorem bracketDepth_close_zero (rest : List Byte) : bracketDepth (jbByte :: rest) 0 = none := by
  simp [bracketDepth]

@[simp] theorem bracketDepth_close_succ (rest : List Byte) (d : Nat) :
    bracketDepth (jbByte :: rest) (d + 1) = bracketDepth rest d := by
  simp [bracketDepth]

theorem bracketDepth_other {b : Byte} (hf : b ≠ jfByte) (hj : b ≠ jbByte) (rest : List Byte) (d : Nat) :
    bracketDepth (b :: rest) d = bracketDepth rest d := by
  simp [bracketDepth, hf, hj]

/-- The depth of a text in two parts is counted part after part. -/
theorem bracketDepth_append (xs ys : List Byte) (d : Nat) :
    bracketDepth (xs ++ ys) d = (bracketDepth xs d).bind (bracketDepth ys) := by
  induction xs generalizing d with
  | nil => simp
  | cons b xs ih =>
    rw [List.cons_append]
    by_cases hf : b = jfByte
    · subst hf; rw [bracketDepth_open, bracketDepth_open, ih]
    by_cases hj : b = jbByte
    · subst hj
      cases d with
      | zero => simp
      | succ d => rw [bracketDepth_close_succ, bracketDepth_close_succ, ih]
    · rw [bracketDepth_other hf hj, bracketDepth_other hf hj, ih]

theorem Program.wf_iff {bs : List Byte} : Program.wf bs = true ↔ bracketDepth bs 0 = some 0 := by
  simp [Program.wf]

/-- What stands strictly between the positions `m` and `j` of a text. -/
def between (text : List Byte) (m j : Nat) : List Byte := (text.drop (m + 1)).take (j - (m + 1))

@[simp] theorem between_self_succ (text : List Byte) (i : Nat) : between text i (i + 1) = [] := by
  simp [between]

theorem between_succ {text : List Byte} {m i : Nat} {b : Byte} (hm : m < i) (hb : text[i]? = some b) :
    between text m (i + 1) = between text m i ++ [b] := by
  have hlen : i + 1 - (m + 1) = i - (m + 1) + 1 := by omega
  have hpos : m + 1 + (i - (m + 1)) = i := by omega
  simp [between, hlen, List.take_add_one, List.getElem?_drop, hpos, hb]

end Sys2Proof

namespace Sys2Proof.Machine
variable {s t : State} {text : List Byte} {i n : Nat} {b : Byte}

/-! ## The copy (R152, R153) -/

/-- Program memory `m` with the bytes `bs` stored from address `n` on. -/
def storeFrom : Nat → List Byte → Memory → Memory
  | _, [], m => m
  | n, b :: bs, m => storeFrom (n + 1) bs (Sparse.put m n b)

theorem lookup_storeFrom (n : Nat) (bs : List Byte) (m : Memory) (a : Nat) :
    Sparse.lookup (storeFrom n bs m) a =
      if n ≤ a then bs[a - n]?.or (Sparse.lookup m a) else Sparse.lookup m a := by
  induction bs generalizing n m with
  | nil => simp [storeFrom]
  | cons b bs ih =>
    rw [storeFrom, ih, Sparse.lookup_put]
    rcases Nat.lt_trichotomy a n with hlt | rfl | hgt
    · rw [if_neg (by omega), if_neg (by omega), if_neg (by omega)]
    · simp
    · have hsub : a - n = a - (n + 1) + 1 := by omega
      rw [if_pos (by omega : n + 1 ≤ a), if_pos (by omega : n ≤ a), if_neg (by omega), hsub,
        List.getElem?_cons_succ]

/-- Stored from address 0 of an empty program memory, a text is read at its own positions. -/
theorem lookup_storeFrom_zero (text : List Byte) (a : Nat) :
    Sparse.lookup (storeFrom 0 text []) a = text[a]? := by
  simp [lookup_storeFrom, Sparse.lookup]

theorem step_copyByte {rest : List LoadEvent} (hr : s.rst = false) (hp : s.phase = .load)
    (hl : s.loader = .copy n) (hn : n < s.params.progCap) (hq : s.loadPort = .byte b :: rest) :
    step s = .next (((s.setLoadPort rest).setProg (Sparse.put s.prog n b)).setLoader (.copy (n + 1))) := by
  simp [step_load hr hp, loadStep, hl, copyStep, hn, hq]

theorem step_copyEnded {rest : List LoadEvent} (hr : s.rst = false) (hp : s.phase = .load)
    (hl : s.loader = .copy n) (hn : n < s.params.progCap) (hq : s.loadPort = .ended :: rest) :
    step s = .next (finishCopy n (s.setLoadPort rest)) := by
  simp [step_load hr hp, loadStep, hl, copyStep, hn, hq]

theorem step_copyFull (hr : s.rst = false) (hp : s.phase = .load) (hl : s.loader = .copy n)
    (hn : s.params.progCap ≤ n) : step s = .next (finishCopy n s) := by
  simp [step_load hr hp, loadStep, hl, copyStep, hn]

/-- The copy of bytes that fit takes them off the port and stores them in order. -/
theorem runSteps_copyBytes {bs : List Byte} {q : List LoadEvent} {e : Nat} (hr : s.rst = false)
    (hp : s.phase = .load) (hl : s.loader = .copy n) (hq : s.loadPort = bs.map LoadEvent.byte ++ q)
    (he : n + bs.length = e) (hcap : e ≤ s.params.progCap) :
    runSteps bs.length s =
      .next (((s.setLoadPort q).setProg (storeFrom n bs s.prog)).setLoader (.copy e)) := by
  induction bs generalizing s n with
  | nil =>
    cases s
    simp_all [runSteps, storeFrom, State.setLoadPort, State.setProg, State.setLoader]
  | cons b bs ih =>
    rw [List.length_cons] at he ⊢
    rw [runSteps_succ (step_copyByte (rest := bs.map LoadEvent.byte ++ q) hr hp hl (by omega) hq)]
    exact ih hr hp rfl rfl (by omega) hcap

/-- What the loader leaves on the port: a source that fits is taken with its end, a longer one is cut (R153). -/
def unreadEvents (cap : Nat) (bs : List Byte) : List LoadEvent :=
  if bs.length < cap then [] else (bs.drop cap).map LoadEvent.byte ++ [.ended]

/-- The state in which the scan of the source `bs` begins. -/
def scanStart (p : Params) (bs : List Byte) : State :=
  { bootState p bs with
    phase := .load
    prog := storeFrom 0 (bs.take p.progCap) []
    progLen := BitVec.ofNat 16 (bs.take p.progCap).length
    loader := .scan 0
    loadPort := unreadEvents p.progCap bs }

/-- From reset, the loader copies the text kept and begins the scan (R152, R153). -/
theorem runSteps_bootState (p : Params) (bs : List Byte) :
    runSteps (1 + ((bs.take p.progCap).length + 1)) (bootState p bs) = .next (scanStart p bs) := by
  have hrelease : runSteps 1 (bootState p bs) = .next ((bootState p bs).setStatus .load .none) := rfl
  have hcap : (bs.take p.progCap).length ≤ p.progCap := List.length_take_le _ _
  refine runSteps_add hrelease _ ?_
  by_cases hfit : bs.length < p.progCap
  · have hkept : bs.take p.progCap = bs := List.take_of_length_le (by omega)
    have hunread : unreadEvents p.progCap bs = [] := if_pos hfit
    have hcopy := runSteps_copyBytes (s := (bootState p bs).setStatus .load .none) (bs := bs.take p.progCap)
      (q := [.ended]) rfl rfl rfl (by rw [hkept]; rfl) (Nat.zero_add _) hcap
    refine runSteps_add hcopy 1 ?_
    rw [runSteps_succ (step_copyEnded rfl rfl rfl (by rw [hkept]; exact hfit) rfl), scanStart, hunread]
    rfl
  · have hfull : p.progCap ≤ (bs.take p.progCap).length := by rw [List.length_take]; omega
    have hport : bs.map LoadEvent.byte ++ [.ended]
        = (bs.take p.progCap).map LoadEvent.byte ++ unreadEvents p.progCap bs := by
      rw [unreadEvents, if_neg hfit, ← List.append_assoc, ← List.map_append, List.take_append_drop]
    have hcopy := runSteps_copyBytes (s := (bootState p bs).setStatus .load .none) (bs := bs.take p.progCap)
      (q := unreadEvents p.progCap bs) rfl rfl rfl hport (Nat.zero_add _) hcap
    refine runSteps_add hcopy 1 ?_
    rw [runSteps_succ (step_copyFull rfl rfl rfl hfull)]
    rfl

/-! ## The scan (R155 to R158) -/

/-- The loader scans the program `text` and is at position `i`. -/
structure State.scansText (s : State) (text : List Byte) (i : Nat) : Prop where
  released : s.rst = false
  inLoad   : s.phase = .load
  place    : s.loader = .scan i
  length   : s.progLen.toNat = text.length
  bytes    : ∀ a, s.progByte a = text[a]?

theorem scanStart_scansText {p : Params} (hp : p.wf = true) (bs : List Byte) :
    (scanStart p bs).scansText (bs.take p.progCap) 0 where
  released := rfl
  inLoad := rfl
  place := rfl
  length := by
    obtain ⟨-, hcap, -⟩ := Params.wf_iff.1 hp
    exact ofNat16_toNat (by rw [List.length_take]; omega)
  bytes := lookup_storeFrom_zero _

theorem State.scansText.lt_65535 (h : s.scansText text i) (hb : text[i]? = some b) : i < 65535 := by
  obtain ⟨hi, -⟩ := List.getElem?_eq_some_iff.1 hb
  have := h.length
  omega

theorem State.scansText.step_scan (h : s.scansText text i) (hb : text[i]? = some b) :
    step s = .next (scanByte i b s) := by
  obtain ⟨hi, -⟩ := List.getElem?_eq_some_iff.1 hb
  simp only [step_load h.released h.inLoad, loadStep, h.place, scanStep, h.length, if_pos hi, h.bytes, hb]

theorem State.scansText.step_finish (h : s.scansText text text.length) : step s = .next (finishScan s) := by
  simp [step_load h.released h.inLoad, loadStep, h.place, scanStep, h.length]

/-- What a turn of the scan that raises no fault does (R155). -/
inductive ScanTurn (s : State) (i : Nat) : Byte → State → Prop where
  | opens : ScanTurn s i jfByte ((s.setStk (BitVec.ofNat 16 i :: s.stk)).setLoader (.scan (i + 1)))
  | closes (m : Word) (rest : List Word) (hk : s.stk = m :: rest) :
      ScanTurn s i jbByte (((s.setStk rest).setJt (recordPair m i s.jt)).setLoader (.scan (i + 1)))
  | other (b : Byte) (hf : b ≠ jfByte) (hj : b ≠ jbByte) : ScanTurn s i b (s.setLoader (.scan (i + 1)))

/-- A byte that keeps the depth count going raises no fault in the scan, and the stack counts as
`bracketDepth` does. -/
theorem scanByte_turn {rest : List Byte} {d : Nat} (hd : bracketDepth (b :: rest) s.stk.length = some d) :
    ScanTurn s i b (scanByte i b s) ∧ bracketDepth rest (scanByte i b s).stk.length = some d := by
  by_cases hf : b = jfByte
  · subst hf
    exact ⟨.opens, by simpa [scanByte] using hd⟩
  by_cases hj : b = jbByte
  · subst hj
    cases hk : s.stk with
    | nil => simp [hk] at hd
    | cons m stk =>
      simp only [scanByte, jbByte_ne_jfByte, if_false, if_true, hk]
      exact ⟨.closes m stk hk, by simpa [hk] using hd⟩
  · rw [scanByte, if_neg hf, if_neg hj]
    exact ⟨.other b hf hj, by rwa [bracketDepth_other hf hj] at hd⟩

theorem ScanTurn.scansText (ht : ScanTurn s i b t) (h : s.scansText text i) : t.scansText text (i + 1) := by
  obtain ⟨hr, hp, -, hlen, hbytes⟩ := h
  cases ht <;> exact ⟨hr, hp, rfl, hlen, hbytes⟩

/-- Induction over the scan: what every turn keeps holds behind the last position, if no `]` closes nothing;
the stack then holds as many brackets as are open. -/
theorem runSteps_scan {P : Nat → State → Prop}
    (hturn : ∀ {i b s t}, s.scansText text i → text[i]? = some b → ScanTurn s i b t → P i s → P (i + 1) t)
    (h : s.scansText text i) (hi : i ≤ text.length) (hP : P i s) {d : Nat}
    (hd : bracketDepth (text.drop i) s.stk.length = some d) :
    ∃ k t, runSteps k s = .next t ∧ t.scansText text text.length ∧ t.stk.length = d ∧ P text.length t := by
  induction hrest : text.drop i generalizing s i with
  | nil =>
    obtain rfl : i = text.length := Nat.le_antisymm hi (List.drop_eq_nil_iff.1 hrest)
    rw [hrest] at hd
    exact ⟨0, s, rfl, h, Option.some.inj hd, hP⟩
  | cons b rest ih =>
    have hb : text[i]? = some b := by rw [← List.head?_drop, hrest]; rfl
    have hnext : text.drop (i + 1) = rest := by
      rw [← List.drop_drop, hrest]; rfl
    obtain ⟨hlt, -⟩ := List.getElem?_eq_some_iff.1 hb
    rw [hrest] at hd
    obtain ⟨ht, hd'⟩ := scanByte_turn (i := i) hd
    obtain ⟨k, u, hrun, hu⟩ := ih (ht.scansText h) hlt (hturn h hb ht hP) (by rwa [hnext]) hnext
    exact ⟨k + 1, u, by rw [runSteps_succ (h.step_scan hb), hrun], hu⟩

/-! ## The pairs of the jump table -/

theorem ScanTurn.scannedTo (ht : ScanTurn s i b t) (h : s.scansText text i) (hb : text[i]? = some b)
    (hs : s.scannedTo i) : t.scannedTo (i + 1) := by
  have hlt := h.lt_65535 hb
  rw [← h.bytes] at hb
  cases ht with
  | opens => exact State.scannedTo_open hs hlt hb _
  | closes m rest hk => exact State.scannedTo_close hs hlt hb hk _
  | other b hf hj => exact State.scannedTo_other hs hb hf hj _

/-- The scan up to `i` has paired matching brackets: of those behind the stack's entry `k`, `k` are open at `i`,
and a `]` with an entry is balanced from there on. -/
structure State.matchedTo (s : State) (text : List Byte) (i : Nat) : Prop where
  scanned   : s.scannedTo i
  openDepth : ∀ k p, s.stk[k]? = some p → bracketDepth (between text p.toNat i) 0 = some k
  balanced  : ∀ m j, m < j → s.progByte j = some jbByte → s.jtTarget j = some (BitVec.ofNat 16 (m + 1)) →
    Program.wf (between text m j) = true

theorem scanStart_matchedTo (p : Params) (bs : List Byte) :
    (scanStart p bs).matchedTo (bs.take p.progCap) 0 where
  scanned := State.scannedTo_zero rfl fun _ => rfl
  openDepth := fun _ _ hp => by simp [scanStart, bootState, State.reset] at hp
  balanced := fun _ _ _ _ ht => by simp [scanStart, bootState, State.reset, State.jtTarget, Sparse.lookup] at ht

/-- The next byte goes on counting behind an open bracket. -/
theorem State.matchedTo.openDepth_succ (h : s.matchedTo text i) (hb : text[i]? = some b) {k : Nat} {p : Word}
    (hp : s.stk[k]? = some p) : bracketDepth (between text p.toNat (i + 1)) 0 = bracketDepth [b] k := by
  have hlt : p.toNat < i := (h.scanned.openOnStack p (List.mem_of_getElem? hp)).1
  rw [between_succ hlt hb, bracketDepth_append, h.openDepth k p hp]
  rfl

/-- A `]` closes the top of the stack: the text between is balanced, and every open bracket behind it counts one
less. Any other `]` keeps the entry it had. -/
theorem ScanTurn.matchedTo_closes {m : Word} {rest : List Word} (hk : s.stk = m :: rest)
    (hs : s.scansText text i) (hb : text[i]? = some jbByte) (h : s.matchedTo text i) :
    (((s.setStk rest).setJt (recordPair m i s.jt)).setLoader (.scan (i + 1))).matchedTo text (i + 1) where
  scanned := (ScanTurn.closes m rest hk).scannedTo hs hb h.scanned
  openDepth k p hp := by
    have hp : s.stk[k + 1]? = some p := by rw [hk]; exact hp
    rw [h.openDepth_succ hb hp]
    exact bracketDepth_close_succ [] k
  balanced a j haj hj hjt := by
    obtain ⟨hmi, hmb, -⟩ := h.scanned.openOnStack m (by simp [hk])
    have hne : j ≠ m.toNat := by
      rintro rfl
      exact absurd (Option.some.inj (hmb.symm.trans hj)) (by decide)
    simp only [State.setLoader_jtTarget, State.setJt_jtTarget, lookup_recordPair, if_neg hne] at hjt
    by_cases hji : j = i
    · subst hji
      rw [if_pos rfl] at hjt
      have hlt := hs.lt_65535 hb
      have ham : m.toNat = a := by
        have hentry : m + 1#16 = BitVec.ofNat 16 (a + 1) := Option.some.inj hjt
        bv_omega
      rw [← ham, Program.wf_iff]
      exact h.openDepth 0 m (by simp [hk])
    · rw [if_neg hji] at hjt
      exact h.balanced a j haj hj hjt

theorem ScanTurn.matchedTo (ht : ScanTurn s i b t) (hs : s.scansText text i) (hb : text[i]? = some b)
    (h : s.matchedTo text i) : t.matchedTo text (i + 1) := by
  have hscan := ht.scannedTo hs hb h.scanned
  cases ht with
  | closes m rest hk => exact ScanTurn.matchedTo_closes hk hs hb h
  | opens =>
    refine ⟨hscan, fun k p hp => ?_, h.balanced⟩
    cases k with
    | zero =>
      obtain rfl : BitVec.ofNat 16 i = p := Option.some.inj hp
      have hlt := hs.lt_65535 hb
      rw [ofNat16_toNat (by omega), between_self_succ]
      rfl
    | succ k => exact h.openDepth_succ hb hp
  | other b hf hj =>
    refine ⟨hscan, fun k p hp => ?_, h.balanced⟩
    rw [h.openDepth_succ hb hp]
    exact bracketDepth_other hf hj [] k

theorem State.matchedTo.wf_between (h : s.matchedTo text i) {m j : Nat} (hp : s.paired m j) :
    Program.wf (between text m j) = true := by
  obtain ⟨hmj, -, hj, -, hjt⟩ := hp
  exact h.balanced m j hmj hj hjt

/-- Settles O47: the scan keeps `State.matchedTo`, and the entry into the run phase leaves the pairs. -/
theorem loadedPairsEncloseBalancedText : Obligations.LoadedPairsEncloseBalancedText := by
  intro p bs hp hload
  have hdepth : bracketDepth (bs.take p.progCap) 0 = some 0 := Program.wf_iff.1 hload
  obtain ⟨k, u, hscan, hu, hstk, hmatch⟩ := runSteps_scan (P := fun i s => s.matchedTo (bs.take p.progCap) i)
    (fun hs hb ht h => ht.matchedTo hs hb h) (scanStart_scansText hp bs) (Nat.zero_le _)
    (scanStart_matchedTo p bs) (d := 0) hdepth
  have hend : step u = .next (u.setStatus .run .none) := by
    rw [hu.step_finish, finishScan, List.length_eq_zero_iff.1 hstk]
  have hrun := runSteps_add (runSteps_bootState p bs) _ (runSteps_add hscan 1 (runSteps_succ hend 0))
  exact ⟨_, _, hrun, rfl, fun m j hmj => hmatch.wf_between hmj⟩

end Sys2Proof.Machine
end

section
/-! SUPPORT. What belongs to whom (spec/10_state.md): the reset values (R32), the `STATUS` fields (R30), what an
instruction and a step leave unchanged (R31, R33), and the invariant `State.Inv`, which every step keeps. -/

namespace Sys2Proof.Machine
variable {s t : State} {i : Instr} {n : Nat}

/-! ## Reset (R32, R150) -/

theorem resetEntry_hasResetValues (s : State) : (resetEntry s).hasResetValues :=
  ⟨(by decide : State.reset.status = 0#8), rfl, rfl, rfl, fun _ => rfl, fun _ => rfl, rfl⟩

/-- The reset values meet the invariant for all parameters R6 and R7 allow. -/
theorem resetEntry_inv (hw : s.params.wf = true) : (resetEntry s).Inv where
  paramsWf := hw
  dpBound := by
    obtain ⟨-, -, htape, -⟩ := Params.wf_iff.1 hw
    exact htape
  pcBound := Nat.le_refl _
  lenBound := Nat.zero_le _
  tapeWf := rfl
  tapeBound := by intro c hc; cases hc
  progRising := rfl
  progBound := by intro c hc; cases hc
  jtRising := rfl
  jtBound := by intro c hc; cases hc
  causeFaulted := ⟨fun h => absurd rfl h, fun h => by cases h⟩
  noJtMiss := by intro h; cases h
  holdInRun := fun h => absurd rfl h
  inReset := fun _ => ⟨⟨rfl, rfl, rfl⟩, rfl, Nat.zero_le _, rfl, rfl, rfl, fun a ha => absurd ha (Nat.not_lt_zero a)⟩
  inLoad := by intro h; cases h
  inRun := by intro h; cases h
  inHalted := by intro h; cases h

theorem resetEntry_reset : resetEntry State.reset = State.reset := rfl

/-- A block that is about to boot is right after reset. -/
theorem resetEntry_bootState (p : Params) (bs : List Byte) : resetEntry (bootState p bs) = bootState p bs := rfl

/-- Settles O5: the reset state is what `resetEntry` makes of itself. -/
theorem resetStateHasTheSpecValues : Obligations.ResetStateHasTheSpecValues :=
  ⟨resetEntry_reset ▸ resetEntry_hasResetValues State.reset, rfl, rfl⟩

/-- Settles O49: the reset state and the admitted boot states are what `resetEntry` makes of themselves. -/
theorem invariantHoldsAtReset : Obligations.InvariantHoldsAtReset :=
  ⟨resetEntry_reset ▸ resetEntry_inv (s := State.reset) rfl,
    fun p bs hp => resetEntry_bootState p bs ▸ resetEntry_inv (s := bootState p bs) hp⟩

/-! ## What an instruction leaves unchanged -/

/-- What the run phase leaves unchanged: the parameters, what the loader owns (R33), and the ports but for the
bytes taken and emitted. -/
structure EngineFrame (s t : State) : Prop where
  params   : t.params = s.params
  progLen  : t.progLen = s.progLen
  prog     : t.prog = s.prog
  jt       : t.jt = s.jt
  stk      : t.stk = s.stk
  loader   : t.loader = s.loader
  rst      : t.rst = s.rst
  loadPort : t.loadPort = s.loadPort
  inEnded  : t.inEnded = s.inEnded
  outReady : t.outReady = s.outReady

/-- The frame of an update of the other fields. -/
theorem EngineFrame.of_eq (h : t = { s with
    phase := t.phase, cause := t.cause, pc := t.pc, dp := t.dp, tape := t.tape, hold := t.hold
    inPort := t.inPort, outStream := t.outStream }) : EngineFrame s t := by
  rw [h]
  constructor <;> rfl

theorem EngineFrame.of_advancePc (h : EngineFrame (advancePc s) t) : EngineFrame s t := { h with }

/-- The fields the transfer of READ writes. -/
theorem InputCase.eq_update (h : InputCase s t) :
    t = { s with tape := t.tape, inPort := t.inPort, hold := t.hold, phase := t.phase, cause := t.cause } := by
  cases h <;> rfl

/-- The fields the transfer of WRITE writes. -/
theorem OutputCase.eq_update {v : Byte} (h : OutputCase v s t) :
    t = { s with outStream := t.outStream, hold := t.hold } := by
  cases h <;> rfl

theorem InputCase.engineFrame (h : InputCase s t) : EngineFrame s t := by
  cases h <;> exact .of_eq rfl

theorem OutputCase.engineFrame {v : Byte} (h : OutputCase v s t) : EngineFrame s t := by
  cases h <;> exact .of_eq rfl

theorem InputCase.dp_eq (h : InputCase s t) : t.dp = s.dp := by rw [h.eq_update]

theorem OutputCase.dp_eq {v : Byte} (h : OutputCase v s t) : t.dp = s.dp := by rw [h.eq_update]

/-- READ stores to the cell at `dp` only. -/
theorem InputCase.cell_other (h : InputCase s t) {a : Nat} (ha : a ≠ s.dp.toNat) : t.cell a = s.cell a := by
  cases h with
  | byte b => exact Memory.read_write_other s.tape b ha
  | zero => exact Memory.read_write_other s.tape 0x00#8 ha
  | allOnes => exact Memory.read_write_other s.tape 0xFF#8 ha
  | held | unchanged | fault => rfl

theorem ExecCase.engineFrame (h : ExecCase s i t) : EngineFrame s t := by
  cases h with
  | write _ t h => exact h.engineFrame
  | read t h => exact h.engineFrame
  | _ => exact .of_eq rfl

theorem ExecCase.cell_other (h : ExecCase s i t) {a : Nat} (ha : a ≠ s.dp.toNat) : t.cell a = s.cell a := by
  cases h with
  | inc | dec => exact Memory.read_write_other _ _ ha
  | write _ t h => rw [h.eq_update]; rfl
  | read t h => exact h.cell_other ha
  | _ => rfl

theorem ExecCase.tape_eq (h : ExecCase s i t) (hinc : i ≠ .inc) (hdec : i ≠ .dec) (hread : i ≠ .read) :
    t.tape = s.tape := by
  cases h with
  | inc | dec | read => contradiction
  | write _ t h => rw [h.eq_update]
  | _ => rfl

theorem ExecCase.dp_eq (h : ExecCase s i t) (hright : i ≠ .right) (hleft : i ≠ .left) : t.dp = s.dp := by
  cases h with
  | right | left => contradiction
  | write _ t h => exact h.dp_eq
  | read t h => exact h.dp_eq
  | _ => rfl

theorem ExecCase.pc_eq (h : ExecCase s i t) (hjf : i ≠ .jf) (hjb : i ≠ .jb) : t.pc = s.pc := by
  cases h with
  | jfFall | jfJump | jfMiss | jbFall | jbJump | jbMiss => contradiction
  | write _ t h => rw [h.eq_update]
  | read t h => rw [h.eq_update]
  | _ => rfl

theorem ExecCase.outStream_eq (h : ExecCase s i t) (hwrite : i ≠ .write) : t.outStream = s.outStream := by
  cases h with
  | write => contradiction
  | read t h => rw [h.eq_update]
  | _ => rfl

theorem ExecCase.inPort_eq (h : ExecCase s i t) (hread : i ≠ .read) : t.inPort = s.inPort := by
  cases h with
  | read => contradiction
  | write _ t h => rw [h.eq_update]
  | _ => rfl

theorem ExecCase.hold_eq (h : ExecCase s i t) (hwrite : i ≠ .write) (hread : i ≠ .read) : t.hold = s.hold := by
  cases h with
  | write | read => contradiction
  | _ => rfl

theorem ExecCase.status_eq (h : ExecCase s i t) (hjf : i ≠ .jf) (hjb : i ≠ .jb) (hread : i ≠ .read) :
    t.phase = s.phase ∧ t.cause = s.cause := by
  cases h with
  | jfFall | jfJump | jfMiss | jbFall | jbJump | jbMiss | read => contradiction
  | write _ t h => rw [h.eq_update]; exact ⟨rfl, rfl⟩
  | _ => exact ⟨rfl, rfl⟩

/-- Settles O28: field by field, from what each execute part can do. -/
theorem execFrameOfEveryInstruction : Obligations.ExecFrameOfEveryInstruction := by
  intro i s t h
  have hx := exec_next h
  obtain ⟨hparams, hlen, hprog, hjt, hstk, hloader, hrst, hport, hended, hready⟩ := hx.engineFrame
  exact ⟨⟨hparams, hlen, hprog, hjt, hstk, hloader, hrst, hport, hended, hready⟩, fun _ => hx.cell_other,
    hx.tape_eq, hx.dp_eq, hx.pc_eq, hx.outStream_eq, hx.inPort_eq, hx.hold_eq, hx.status_eq⟩

/-- Settles O29: every access goes through `withCell` or `storeCell`, which stop outside the tape. -/
theorem accessOutsideTheTapeStops : Obligations.AccessOutsideTheTapeStops := by
  intro s hd
  refine ⟨fun i hi => ?_, fun b rest hin => ?_, fun hin he hp => ?_⟩
  · rcases hi with rfl | rfl | rfl | rfl | rfl
    all_goals simp only [exec, execInc, execDec, execJf, execJb, execWrite, withCell_outOfRange hd]
  · simp only [exec, execRead, inputTransfer, takeInput, hin]
    exact storeCell_outOfRange (s := (s.setInPort rest).setHold .free) hd b
  · simp only [exec, execRead, inputTransfer, takeInput, hin, he, if_true]
    rcases hp with hp | hp
    all_goals
      simp only [hp, eofAction]
      exact storeCell_outOfRange (s := s.setHold .free) hd _

/-! ## What a step leaves unchanged (R31, R33) -/

/-- What the phases before and after the run leave unchanged: the parameters, what the engine owns (R33), and
the ports but for the load events taken. -/
structure LoaderFrame (s t : State) : Prop where
  params    : t.params = s.params
  pc        : t.pc = s.pc
  dp        : t.dp = s.dp
  tape      : t.tape = s.tape
  hold      : t.hold = s.hold
  rst       : t.rst = s.rst
  inPort    : t.inPort = s.inPort
  inEnded   : t.inEnded = s.inEnded
  outReady  : t.outReady = s.outReady
  outStream : t.outStream = s.outStream

/-- The frame of an update of the other fields. -/
theorem LoaderFrame.of_eq (h : t = { s with
    phase := t.phase, cause := t.cause, progLen := t.progLen, prog := t.prog, jt := t.jt, stk := t.stk
    loader := t.loader, loadPort := t.loadPort }) : LoaderFrame s t := by
  rw [h]
  constructor <;> rfl

theorem State.fetches.phase_eq {b : Byte} (hf : s.fetches b) : s.phase = .run := by
  obtain ⟨⟨-, hp, -⟩, -⟩ := hf
  exact hp

theorem StepCase.loaderFrame (h : StepCase s t) (hr : s.rst = false) (hp : s.phase ≠ .run) : LoaderFrame s t := by
  cases h with
  | reset hr' => rw [hr] at hr'; contradiction
  | exec _ hf => exact absurd hf.phase_eq hp
  | halt hrun =>
    obtain ⟨-, hrun, -⟩ := hrun
    contradiction
  | input | output => contradiction
  | _ => exact .of_eq rfl

theorem StepCase.engineFrame (h : StepCase s t) (hr : s.rst = false) (hp : s.phase ≠ .load) : EngineFrame s t := by
  cases h with
  | reset hr' => rw [hr] at hr'; contradiction
  | exec _ _ t h => exact h.engineFrame.of_advancePc
  | input _ _ _ t h => exact h.engineFrame
  | output _ _ _ _ t h => exact h.engineFrame
  | release | halt | ended => exact .of_eq rfl
  | _ => contradiction

/-- Settles O36: the two frames, each outside the other's phase. -/
theorem engineAndLoaderOwnTheirState : Obligations.EngineAndLoaderOwnTheirState := by
  refine ⟨fun s t hr hp h => ?_, fun s t hr hp h => ?_⟩
  · have hf := (step_next h).loaderFrame hr hp
    exact ⟨hf.pc, hf.dp, hf.tape⟩
  · have hf := (step_next h).engineFrame hr hp
    exact ⟨hf.prog, hf.progLen, hf.jt, hf.stk⟩

/-- Settles O37: reset keeps the four, and so do both frames. -/
theorem stepLeavesParametersRstInputEndAndReadiness :
    Obligations.StepLeavesParametersRstInputEndAndReadiness := by
  intro s t h
  cases hr : s.rst with
  | true =>
    rw [step_reset hr] at h
    cases h
    exact ⟨rfl, hr, rfl, rfl⟩
  | false =>
    by_cases hp : s.phase = .run
    · have hf := (step_next h).engineFrame hr (by simp [hp])
      exact ⟨hf.params, hf.rst.trans hr, hf.inEnded, hf.outReady⟩
    · have hf := (step_next h).loaderFrame hr hp
      exact ⟨hf.params, hf.rst.trans hr, hf.inEnded, hf.outReady⟩

/-- A step that changes `dp` is reset or runs a pointer move (R22). -/
theorem StepCase.dp_written (h : StepCase s t) (hdp : t.dp ≠ s.dp) :
    (s.rst = true ∧ t.dp = 0#16) ∨ ∃ b, s.fetches b ∧ (decode b = .right ∨ decode b = .left) := by
  cases h with
  | reset hr => exact .inl ⟨hr, rfl⟩
  | exec b hf t h =>
    refine .inr ⟨b, hf, ?_⟩
    by_contra hmove
    obtain ⟨hright, hleft⟩ := not_or.1 hmove
    exact hdp (h.dp_eq hright hleft)
  | input _ _ _ t h => exact absurd h.dp_eq hdp
  | output _ _ _ _ t h => exact absurd h.dp_eq hdp
  | _ => exact absurd rfl hdp

/-! ## What a loaded program gives (R27, R114) -/

theorem State.loaded.congr (h : s.loaded) (hlen : t.progLen = s.progLen) (hprog : t.prog = s.prog)
    (hjt : t.jt = s.jt) (hstk : t.stk = s.stk) : t.loaded := by
  have hp : ∀ a, t.progByte a = s.progByte a := fun a => by simp only [State.progByte, hprog]
  have hj : ∀ k, t.jtTarget k = s.jtTarget k := fun k => by simp only [State.jtTarget, hjt]
  obtain ⟨hempty, hbelow, hscan⟩ := h
  refine ⟨hstk.trans hempty, ?_, ?_⟩
  · simpa only [State.loadedBelow, hlen, hp] using hbelow
  · rw [hlen]
    exact State.scannedTo_congr hp hj hstk hscan

/-- Every `[` of a loaded program is matched. -/
theorem State.loaded.exists_close (h : s.loaded) {m : Nat} (hm : m < s.progLen.toNat)
    (hb : s.progByte m = some jfByte) : ∃ j, s.paired m j := by
  obtain ⟨hempty, -, hscan⟩ := h
  rcases hscan.openPlaced m hm hb with ⟨p, hp, -⟩ | ⟨j, -, hpair⟩
  · rw [hempty] at hp; cases hp
  · exact ⟨j, hpair⟩

/-- Every `]` of a loaded program is matched. -/
theorem State.loaded.exists_open (h : s.loaded) {j : Nat} (hj : j < s.progLen.toNat)
    (hb : s.progByte j = some jbByte) : ∃ m, s.paired m j := by
  obtain ⟨-, -, hscan⟩ := h
  exact hscan.closePlaced j hj hb

/-- Every target of a loaded program is in it or at its end (R114). -/
theorem State.loaded.target_le (h : s.loaded) {k : Nat} {target : Word} (hk : s.jtTarget k = some target) :
    target.toNat ≤ s.progLen.toNat := by
  obtain ⟨-, -, hscan⟩ := h
  obtain ⟨m, j, hj, ⟨hmj, -, -, hopen, hclose⟩, rfl | rfl⟩ := hscan.entryPaired k target hk
  · obtain rfl : target = BitVec.ofNat 16 (j + 1) := Option.some.inj (hk.symm.trans hopen)
    rw [ofNat16_toNat (by omega)]
    exact hj
  · obtain rfl : target = BitVec.ofNat 16 (m + 1) := Option.some.inj (hk.symm.trans hclose)
    rw [ofNat16_toNat (by omega)]
    omega

/-- A bracket of a loaded program has its entry (R113, R134). -/
theorem State.loaded.entry_of_bracket (h : s.loaded) {k : Nat} (hk : k < s.progLen.toNat)
    (hb : s.progByte k = some jfByte ∨ s.progByte k = some jbByte) : s.jtTarget k ≠ none := by
  rcases hb with hb | hb
  · obtain ⟨j, -, -, -, hentry, -⟩ := h.exists_close hk hb
    simp [hentry]
  · obtain ⟨m, -, -, -, -, hentry⟩ := h.exists_open hk hb
    simp [hentry]

/-- A loaded program has an entry only where it has a bracket. -/
theorem State.loaded.bracket_of_entry (h : s.loaded) {k : Nat} (hk : s.jtTarget k ≠ none) :
    s.progByte k = some jfByte ∨ s.progByte k = some jbByte := by
  obtain ⟨target, htarget⟩ := Option.ne_none_iff_exists'.1 hk
  obtain ⟨-, -, hscan⟩ := h
  obtain ⟨m, j, -, ⟨-, hopen, hclose, -⟩, rfl | rfl⟩ := hscan.entryPaired k target htarget
  · exact .inl hopen
  · exact .inr hclose

/-- The byte an instruction was decoded from is its encoding (R65). -/
theorem byte_of_decode {b : Byte} (h : decode b = i) : b = encodeByte i := h ▸ (encodeByte_decode b).symm

/-- A bracket that a loaded program fetches finds its entry at its own position (R112, R113). -/
theorem State.fetches.bracket_entry {b : Byte} (hf : s.fetches b) (h : s.loaded)
    (hb : decode b = .jf ∨ decode b = .jb) : s.jtTarget s.pc.toNat ≠ none := by
  obtain ⟨-, hlt, hbyte⟩ := hf
  refine h.entry_of_bracket hlt (hb.imp (fun hb => ?_) fun hb => ?_)
  · rwa [byte_of_decode hb] at hbyte
  · rwa [byte_of_decode hb] at hbyte

/-! ## The invariant, by phase -/

theorem State.Inv.cause_eq_none (h : s.Inv) (hp : s.phase ≠ .faulted) : s.cause = .none :=
  not_not.1 fun hc => hp (h.causeFaulted.1 hc)

theorem State.Inv.hold_eq_free (h : s.Inv) (hp : s.phase ≠ .run) : s.hold = .free :=
  not_not.1 fun hh => hp (h.holdInRun hh)

theorem State.Inv.copying (h : s.Inv) (hp : s.phase = .load) (hl : s.loader = .copy n) : s.copying n := by
  obtain ⟨-, hload⟩ := h.inLoad hp
  simpa only [State.loading, hl] using hload

theorem State.Inv.scanning (h : s.Inv) (hp : s.phase = .load) (hl : s.loader = .scan n) : s.scanning n := by
  obtain ⟨-, hload⟩ := h.inLoad hp
  simpa only [State.loading, hl] using hload

/-! ## A change of `STATUS` keeps the invariant (R57) -/

/-- Outside a hold, each of R57's transitions keeps the invariant, if the phase it enters may begin. -/
theorem State.Inv.setStatus (h : s.Inv) (hh : s.hold = .free) {p : Phase} {c : Cause}
    (hc : c ≠ .none ↔ p = .faulted) (hm : c ≠ .jtMiss) (hreset : p ≠ .reset)
    (hload : p = .load → s.phase = .reset) (hrun : p = .run ∨ p = .halted → s.loaded)
    (hhalt : p = .halted → s.pc = s.progLen) : (s.setStatus p c).Inv :=
  { h with
    causeFaulted := hc
    noJtMiss := hm
    holdInRun := fun hn => absurd hh hn
    inReset := fun hp => absurd hp hreset
    inLoad := fun hp => by
      obtain ⟨hfresh, hloader, hcopy⟩ := h.inReset (hload hp)
      refine ⟨hfresh, ?_⟩
      rw [State.loading, State.setStatus_loader, hloader]
      exact hcopy
    inRun := fun hp => (hrun (.inl hp)).congr rfl rfl rfl rfl
    inHalted := fun hp => ⟨(hrun (.inr hp)).congr rfl rfl rfl rfl, hhalt hp⟩ }

theorem State.Inv.fault (h : s.Inv) (hh : s.hold = .free) {c : Cause} (hc : c ≠ .none) (hm : c ≠ .jtMiss) :
    (s.setStatus .faulted c).Inv :=
  h.setStatus hh (iff_of_true hc rfl) hm (by decide) (by simp) (by simp) (by simp)

theorem State.Inv.halt (h : s.Inv) (hrun : s.running) (he : s.pc = s.progLen) : (s.setStatus .halted .none).Inv := by
  obtain ⟨-, hp, hh⟩ := hrun
  exact h.setStatus hh (by decide) (by decide) (by decide) (by simp) (fun _ => h.inRun hp) fun _ => he

theorem State.Inv.release (h : s.Inv) (hp : s.phase = .reset) : (s.setStatus .load .none).Inv :=
  h.setStatus (h.hold_eq_free (by simp [hp])) (by decide) (by decide) (by decide) (fun _ => hp) (by simp) (by simp)

/-- The end of the scan with an empty stack enters the run phase (R158). -/
theorem State.Inv.scanDone (h : s.Inv) (hp : s.phase = .load) (hl : s.loader = .scan n)
    (hn : s.progLen.toNat ≤ n) (hk : s.stk = []) : (s.setStatus .run .none).Inv := by
  obtain ⟨hle, hbelow, hscan⟩ := h.scanning hp hl
  obtain rfl : n = s.progLen.toNat := Nat.le_antisymm hle hn
  exact h.setStatus (h.hold_eq_free (by simp [hp])) (by decide) (by decide) (by decide) (by simp)
    (fun _ => ⟨hk, hbelow, hscan⟩) (by simp)

/-! ## The run phase keeps the invariant -/

/-- The bounds of what the engine owns: `pc`, `dp` and the tape (R21, R22, R25). -/
def State.engineBounded (s : State) : Prop :=
  s.pc.toNat ≤ s.progLen.toNat ∧ s.dpInRange ∧ Memory.wf s.tape = true ∧ ∀ c ∈ s.tape, c.1 < s.params.tapeCap

theorem State.Inv.engineBounded (h : s.Inv) : s.engineBounded := ⟨h.pcBound, h.dpBound, h.tapeWf, h.tapeBound⟩

theorem State.engineBounded.write (h : s.engineBounded) (v : Byte) :
    (s.setTape (Memory.write s.tape s.dp.toNat v)).engineBounded := by
  obtain ⟨hpc, hdp, hwf, hbound⟩ := h
  refine ⟨hpc, hdp, Memory.wf_write hwf _ _, fun c hc => ?_⟩
  rcases Memory.mem_write hc with ha | hc
  · rw [ha]; exact hdp
  · exact hbound c hc

theorem State.engineBounded.setDp (h : s.engineBounded) {v : Word} (hv : v.toNat < s.params.tapeCap) :
    (s.setDp v).engineBounded := by
  obtain ⟨hpc, -, htape⟩ := h
  exact ⟨hpc, hv, htape⟩

theorem State.engineBounded.setPc (h : s.engineBounded) {v : Word} (hv : v.toNat ≤ s.progLen.toNat) :
    (s.setPc v).engineBounded := by
  obtain ⟨-, hrest⟩ := h
  exact ⟨hv, hrest⟩

theorem InputCase.engineBounded (h : InputCase s t) (hb : s.engineBounded) : t.engineBounded := by
  cases h with
  | byte b => exact hb.write b
  | zero => exact hb.write _
  | allOnes => exact hb.write _
  | held | unchanged | fault => exact hb

theorem OutputCase.engineBounded {v : Byte} (h : OutputCase v s t) (hb : s.engineBounded) : t.engineBounded := by
  cases h with
  | accepted | held => exact hb

theorem ExecCase.engineBounded (h : ExecCase s i t) (hb : s.engineBounded) (hw : s.params.wf = true)
    (hl : s.loaded) : t.engineBounded := by
  obtain ⟨-, -, hcap, hcap'⟩ := Params.wf_iff.1 hw
  cases h with
  | inc | dec => exact hb.write _
  | right => exact hb.setDp (by rw [ringSucc_toNat hcap hcap']; exact Nat.mod_lt _ hcap)
  | left => exact hb.setDp (by rw [ringPred_toNat hcap hcap']; exact Nat.mod_lt _ hcap)
  | jfJump _ _ target ht => exact hb.setPc (hl.target_le ht)
  | jbJump _ _ target ht => exact hb.setPc (hl.target_le ht)
  | write _ t h => exact h.engineBounded hb
  | read t h => exact h.engineBounded hb
  | jfFall | jfMiss | jbFall | jbMiss | nop => exact hb

/-- In the run phase, what keeps to the engine's own state and its bounds keeps the invariant. -/
theorem State.Inv.of_engineFrame (h : s.Inv) (hp : s.phase = .run) (hf : EngineFrame s t) (hb : t.engineBounded)
    (hp' : t.phase = s.phase) (hc : t.cause = s.cause) : t.Inv := by
  obtain ⟨hpc, hdp, hwf, hbound⟩ := hb
  rw [hp] at hp'
  have hcause : t.cause = .none := hc.trans (h.cause_eq_none (by simp [hp]))
  exact {
    paramsWf := by rw [hf.params]; exact h.paramsWf
    dpBound := hdp
    pcBound := hpc
    lenBound := by rw [hf.params, hf.progLen]; exact h.lenBound
    tapeWf := hwf
    tapeBound := hbound
    progRising := by rw [hf.prog]; exact h.progRising
    progBound := by rw [hf.params, hf.prog]; exact h.progBound
    jtRising := by rw [hf.jt]; exact h.jtRising
    jtBound := by rw [hf.params, hf.jt]; exact h.jtBound
    causeFaulted := by simp [hp', hcause]
    noJtMiss := by simp [hcause]
    holdInRun := fun _ => hp'
    inReset := by simp [hp']
    inLoad := by simp [hp']
    inRun := fun _ => (h.inRun hp).congr hf.progLen hf.prog hf.jt hf.stk
    inHalted := by simp [hp'] }

theorem InputCase.inv (hx : InputCase s t) (h : s.Inv) (hp : s.phase = .run) : t.Inv := by
  have hframe := hx.engineFrame
  have hbound := hx.engineBounded h.engineBounded
  cases hx with
  | byte | held | unchanged | zero | allOnes => exact h.of_engineFrame hp hframe hbound rfl rfl
  | fault =>
    have hfree : (s.setHold .free).Inv := h.of_engineFrame hp (.of_eq rfl) h.engineBounded rfl rfl
    exact hfree.fault rfl (by decide) (by decide)

theorem OutputCase.inv {v : Byte} (hx : OutputCase v s t) (h : s.Inv) (hp : s.phase = .run) : t.Inv :=
  h.of_engineFrame hp hx.engineFrame (hx.engineBounded h.engineBounded) (by rw [hx.eq_update])
    (by rw [hx.eq_update])

/-- The execute part keeps the invariant where a bracket finds its entry. -/
theorem ExecCase.inv (hx : ExecCase s i t) (h : s.Inv) (hp : s.phase = .run)
    (hentry : i = .jf ∨ i = .jb → s.jtTarget s.jumpKey ≠ none) : t.Inv := by
  have hframe := hx.engineFrame
  have hbound := hx.engineBounded h.engineBounded h.paramsWf (h.inRun hp)
  cases hx with
  | jfMiss _ _ ht => exact absurd ht (hentry (.inl rfl))
  | jbMiss _ _ ht => exact absurd ht (hentry (.inr rfl))
  | write _ t hx => exact hx.inv h hp
  | read t hx => exact hx.inv h hp
  | _ => exact h.of_engineFrame hp hframe hbound rfl rfl

/-- The fetch's advance stays in the program (R84). -/
theorem State.fetches.advancePc_toNat {b : Byte} (hf : s.fetches b) : (advancePc s).pc.toNat = s.pc.toNat + 1 := by
  obtain ⟨-, hlt, -⟩ := hf
  have := s.progLen.isLt
  simp only [advancePc, State.setPc_pc]
  bv_omega

theorem State.fetches.inv_advancePc {b : Byte} (hf : s.fetches b) (h : s.Inv) : (advancePc s).Inv := by
  have hpc := hf.advancePc_toNat
  have hp := hf.phase_eq
  obtain ⟨-, hlt, -⟩ := hf
  exact h.of_engineFrame hp (.of_eq rfl) (h.engineBounded.setPc (hpc.trans_le hlt)) rfl rfl

/-! ## The load phase keeps the invariant -/

/-- The bounds of what the loader owns: `PROG_LEN`, program memory and the jump table (R23, R24, R26). -/
def State.loaderBounded (s : State) : Prop :=
  s.progLen.toNat ≤ s.params.progCap
    ∧ (Sparse.rising s.prog = true ∧ ∀ c ∈ s.prog, c.1 < s.params.progCap)
    ∧ Sparse.rising s.jt = true ∧ ∀ c ∈ s.jt, c.1 < s.params.progCap

theorem State.Inv.loaderBounded (h : s.Inv) : s.loaderBounded :=
  ⟨h.lenBound, ⟨h.progRising, h.progBound⟩, h.jtRising, h.jtBound⟩

/-- An entry put at a key in bounds keeps the canonical form and the bound. -/
theorem Sparse.bounded_put {β : Type} {l : List (Nat × β)} {cap a : Nat} (v : β) (ha : a < cap)
    (h : Sparse.rising l = true ∧ ∀ c ∈ l, c.1 < cap) :
    Sparse.rising (Sparse.put l a v) = true ∧ ∀ c ∈ Sparse.put l a v, c.1 < cap := by
  obtain ⟨hrise, hbound⟩ := h
  refine ⟨Sparse.rising_put a v hrise, fun c hc => ?_⟩
  rcases Sparse.mem_put hc with rfl | hc
  · exact ha
  · exact hbound c hc

/-- In the load phase, what keeps to the loader's own state, its bounds and its progress keeps the invariant. -/
theorem State.Inv.of_loaderFrame (h : s.Inv) (hp : s.phase = .load) (hf : LoaderFrame s t) (hb : t.loaderBounded)
    (hload : t.loading) (hp' : t.phase = s.phase) (hc : t.cause = s.cause) : t.Inv := by
  obtain ⟨hlen, ⟨hprog, hprogBound⟩, hjt, hjtBound⟩ := hb
  obtain ⟨⟨hpc, hdp, htape⟩, -⟩ := h.inLoad hp
  have hcause : t.cause = .none := hc.trans (h.cause_eq_none (by simp [hp]))
  have hhold : t.hold = .free := hf.hold.trans (h.hold_eq_free (by simp [hp]))
  rw [hp] at hp'
  exact {
    paramsWf := by rw [hf.params]; exact h.paramsWf
    dpBound := by rw [State.dpInRange, hf.dp, hf.params]; exact h.dpBound
    pcBound := by rw [hf.pc, hpc]; exact Nat.zero_le _
    lenBound := hlen
    tapeWf := by rw [hf.tape]; exact h.tapeWf
    tapeBound := by rw [hf.tape, hf.params]; exact h.tapeBound
    progRising := hprog
    progBound := hprogBound
    jtRising := hjt
    jtBound := hjtBound
    causeFaulted := by simp [hp', hcause]
    noJtMiss := by simp [hcause]
    holdInRun := fun hn => absurd hhold hn
    inReset := by simp [hp']
    inLoad := fun _ => ⟨⟨hf.pc.trans hpc, hf.dp.trans hdp, hf.tape.trans htape⟩, hload⟩
    inRun := by simp [hp']
    inHalted := by simp [hp'] }

/-- The copy takes an event off the load port (R54). -/
theorem State.Inv.takeEvent (h : s.Inv) (hp : s.phase = .load) (hl : s.loader = .copy n)
    (rest : List LoadEvent) : (s.setLoadPort rest).Inv := by
  refine h.of_loaderFrame hp (.of_eq rfl) h.loaderBounded ?_ rfl rfl
  rw [State.loading, State.setLoadPort_loader, hl]
  exact h.copying hp hl

/-- A byte of the source is stored behind those taken before (R152). -/
theorem State.Inv.copyByte (h : s.Inv) (hp : s.phase = .load) (hl : s.loader = .copy n)
    (hn : n < s.params.progCap) (b : Byte) :
    ((s.setProg (Sparse.put s.prog n b)).setLoader (.copy (n + 1))).Inv := by
  obtain ⟨-, hlen, hjt, hstk, hbelow⟩ := h.copying hp hl
  obtain ⟨hcap, hprog, htable⟩ := h.loaderBounded
  refine h.of_loaderFrame hp (.of_eq rfl) ⟨hcap, Sparse.bounded_put b hn hprog, htable⟩
    ⟨hn, hlen, hjt, hstk, fun a ha => ?_⟩ rfl rfl
  simp only [State.setLoader_progByte, State.setProg_progByte, Sparse.lookup_put]
  by_cases han : a = n
  · exact ⟨b, if_pos han⟩
  · rw [if_neg han]
    exact hbelow a (by omega)

/-- The end of the copy begins the scan (R152, R155). -/
theorem State.Inv.endCopy (h : s.Inv) (hp : s.phase = .load) (hl : s.loader = .copy n) :
    (finishCopy n s).Inv := by
  obtain ⟨hn, -, hjt, -, hbelow⟩ := h.copying hp hl
  obtain ⟨-, hcap, -⟩ := Params.wf_iff.1 h.paramsWf
  obtain ⟨-, hmemories⟩ := h.loaderBounded
  have hlen : (BitVec.ofNat 16 n).toNat = n := ofNat16_toNat (by omega)
  have hnone : ∀ k, s.jtTarget k = none := fun k => by rw [State.jtTarget, hjt]; rfl
  refine h.of_loaderFrame hp (.of_eq rfl) ⟨hlen.trans_le hn, hmemories⟩ ⟨Nat.zero_le _, ?_, ?_⟩ rfl rfl
  · rw [finishCopy, State.setLoader_progLen, State.setStk_progLen, State.setProgLen_progLen, hlen]
    exact hbelow
  · exact State.scannedTo_zero rfl hnone

/-- One position of the scan that raises no fault (R155). -/
theorem State.Inv.scanTurn (h : s.Inv) (hp : s.phase = .load) (hl : s.loader = .scan n)
    (hn : n < s.progLen.toNat) {b : Byte} (hb : s.progByte n = some b) (ht : ScanTurn s n b t) : t.Inv := by
  obtain ⟨-, hbelow, hscan⟩ := h.scanning hp hl
  obtain ⟨hcap, hprog, htable⟩ := h.loaderBounded
  have hlt : n < 65535 := by have := s.progLen.isLt; omega
  cases ht with
  | opens =>
    exact h.of_loaderFrame hp (.of_eq rfl) h.loaderBounded ⟨hn, hbelow, State.scannedTo_open hscan hlt hb _⟩ rfl rfl
  | closes m rest hk =>
    obtain ⟨hm, -⟩ := hscan.openOnStack m (by simp [hk])
    have htable' := Sparse.bounded_put (m + 1#16) (hn.trans_le hcap)
      (Sparse.bounded_put (BitVec.ofNat 16 (n + 1)) (by omega : m.toNat < s.params.progCap) htable)
    exact h.of_loaderFrame hp (.of_eq rfl) ⟨hcap, hprog, htable'⟩
      ⟨hn, hbelow, State.scannedTo_close hscan hlt hb hk _⟩ rfl rfl
  | other b hf hj =>
    exact h.of_loaderFrame hp (.of_eq rfl) h.loaderBounded ⟨hn, hbelow, State.scannedTo_other hscan hb hf hj _⟩
      rfl rfl

/-! ## Every step keeps the invariant -/

theorem StepCase.inv (hx : StepCase s t) (h : s.Inv) : t.Inv := by
  have hfree : s.phase = .load → s.hold = .free := fun hp => h.hold_eq_free (by simp [hp])
  cases hx with
  | reset => exact resetEntry_inv h.paramsWf
  | release _ hp => exact h.release hp
  | copyFull _ hp n hl => exact h.endCopy hp hl
  | copyHeld => exact h
  | copyByte _ hp n hl hn b rest => exact (h.takeEvent hp hl rest).copyByte hp hl hn b
  | copyEnded _ hp n hl _ rest => exact (h.takeEvent hp hl rest).endCopy hp hl
  | copyError _ hp n hl _ rest =>
    exact (h.takeEvent hp hl rest).fault (hfree hp) (by decide) (by decide)
  | scanOpen _ hp i hl hi hb => exact h.scanTurn hp hl hi hb .opens
  | scanClose _ hp i hl hi hb m rest hk => exact h.scanTurn hp hl hi hb (.closes m rest hk)
  | scanUnbalancedClose _ hp => exact h.fault (hfree hp) (by decide) (by decide)
  | scanOther _ hp i hl hi b hb hf hj => exact h.scanTurn hp hl hi hb (.other b hf hj)
  | scanDone _ hp i hl hi hk => exact h.scanDone hp hl hi hk
  | scanUnbalancedOpen _ hp => exact h.fault (hfree hp) (by decide) (by decide)
  | exec b hf t hx =>
    refine hx.inv (hf.inv_advancePc h) hf.phase_eq fun hb => ?_
    rw [jumpKey_advancePc]
    exact hf.bracket_entry (h.inRun hf.phase_eq) hb
  | halt hrun he => exact h.halt hrun he
  | input _ hp _ t hx => exact hx.inv h hp
  | output _ hp _ _ t hx => exact hx.inv h hp
  | ended => exact h

/-- Settles O50: the invariant holds behind each case of a step. -/
theorem everyStepKeepsTheInvariant : Obligations.EveryStepKeepsTheInvariant :=
  fun _ _ h hstep => (step_next hstep).inv h

/-! ## What the invariant says -/

/-- Settles O34: the bounds are the invariant's, which the step keeps. -/
theorem onlyPointerMovesWriteDp : Obligations.OnlyPointerMovesWriteDp := by
  refine ⟨fun s t h hstep => ((step_next hstep).inv h).dpBound, fun s t hstep => (step_next hstep).dp_written,
    fun s h hcap => ?_⟩
  have hdp : s.dp.toNat < 2 ^ 15 := by
    have := h.dpBound
    rw [State.dpInRange, hcap] at this
    exact this
  exact Nat.testBit_lt_two_pow hdp

/-- Positions that fall from the top of a stack are no more than there are below the bound. -/
theorem length_le_of_falling {l : List Word} (hl : ∀ p ∈ l, p.toNat < n)
    (hfall : l.Pairwise fun p q => q.toNat < p.toNat) : l.length ≤ n := by
  induction l generalizing n with
  | nil => exact Nat.zero_le _
  | cons p rest ih =>
    obtain ⟨hlow, hfall⟩ := List.pairwise_cons.1 hfall
    have hp := hl p List.mem_cons_self
    have hrest := ih hlow hfall
    rw [List.length_cons]
    omega

theorem State.scannedTo.stk_length_le (h : s.scannedTo n) : s.stk.length ≤ n :=
  length_le_of_falling (fun p hp => (h.openOnStack p hp).1) h.stackFalls

theorem State.Inv.stk_length_le (h : s.Inv) (hp : s.phase ≠ .faulted) : s.stk.length ≤ s.progLen.toNat := by
  have hempty : s.stk = [] → s.stk.length ≤ s.progLen.toNat := fun hk => by simp [hk]
  cases hphase : s.phase with
  | reset =>
    obtain ⟨-, -, -, -, -, hk, -⟩ := h.inReset hphase
    exact hempty hk
  | load =>
    cases hl : s.loader with
    | copy n =>
      obtain ⟨-, -, -, hk, -⟩ := h.copying hphase hl
      exact hempty hk
    | scan i =>
      obtain ⟨hi, -, hscan⟩ := h.scanning hphase hl
      exact hscan.stk_length_le.trans hi
  | run =>
    obtain ⟨hk, -⟩ := h.inRun hphase
    exact hempty hk
  | halted =>
    obtain ⟨⟨hk, -⟩, -⟩ := h.inHalted hphase
    exact hempty hk
  | faulted => contradiction

/-- Settles O38: the positions on the stack fall and are below the scan's. -/
theorem bracketStackCannotOverflow : Obligations.BracketStackCannotOverflow :=
  fun _ h hp => ⟨h.stk_length_le hp, (h.stk_length_le hp).trans h.lenBound⟩

/-! ## The `STATUS` register (R30) -/

theorem State.status_reserved (s : State) : s.status.extractLsb' 6 2 = 0#2 :=
  (BitVec.extractLsb'_append_eq_of_le (by decide)).trans BitVec.extractLsb'_append_eq_left

theorem State.status_phase (s : State) : s.status.extractLsb' 0 3 = phaseCode s.phase :=
  BitVec.extractLsb'_append_eq_right

theorem State.status_cause (s : State) : s.status.extractLsb' 3 3 = causeCode s.cause :=
  (BitVec.extractLsb'_append_eq_of_le (by decide)).trans BitVec.extractLsb'_append_eq_right

/-- Settles O14: each field is its code, and the invariant has `CAUSE` NONE outside FAULTED. -/
theorem statusFieldsHaveTheSpecCodes : Obligations.StatusFieldsHaveTheSpecCodes := by
  refine ⟨State.status_reserved, fun s => ?_, fun s => ?_, fun s h hcode => ?_⟩
  · rw [s.status_phase]
    cases s.phase <;> rfl
  · rw [s.status_cause]
    cases s.cause <;> rfl
  · have hp : s.phase ≠ .faulted := by
      intro hp
      rw [s.status_phase, hp] at hcode
      exact hcode rfl
    rw [s.status_cause, h.cause_eq_none hp]
    rfl

/-! ## The jump table of a loaded text (R27) -/

/-- From reset, the load of a balanced text ends in RUN, scanned to its end. -/
theorem runSteps_load_balanced {p : Params} {bs : List Byte} (hp : p.wf = true)
    (hload : Program.loadable p.progCap bs = true) :
    ∃ (k : Nat) (u : State), runSteps k (bootState p bs) = .next (u.setStatus .run .none)
      ∧ (∀ a, u.progByte a = (bs.take p.progCap)[a]?) ∧ u.progLen.toNat = (bs.take p.progCap).length ∧ u.loaded := by
  have hdepth : bracketDepth (bs.take p.progCap) 0 = some 0 := Program.wf_iff.1 hload
  obtain ⟨k, u, hscan, hu, hstk, hscanned⟩ := runSteps_scan (P := fun i s => s.scannedTo i)
    (fun hs hb ht h => ht.scannedTo hs hb h) (scanStart_scansText hp bs) (Nat.zero_le _)
    (State.scannedTo_zero rfl fun _ => rfl) (d := 0) hdepth
  have hempty : u.stk = [] := List.length_eq_zero_iff.1 hstk
  have hend : step u = .next (u.setStatus .run .none) := by rw [hu.step_finish, finishScan, hempty]
  refine ⟨_, u, runSteps_add (runSteps_bootState p bs) _ (runSteps_add hscan 1 (runSteps_succ hend 0)), hu.bytes,
    hu.length, hempty, fun a ha => ?_, ?_⟩
  · rw [hu.length] at ha
    exact ⟨_, (hu.bytes a).trans (List.getElem?_eq_getElem ha)⟩
  · rw [hu.length]
    exact hscanned

/-- Settles O46: the scan places every bracket of the text, and the stack is empty behind it. -/
theorem loadedJumpTableIsComplete : Obligations.LoadedJumpTableIsComplete := by
  intro p bs hp hload
  obtain ⟨k, u, hrun, hbytes, hlen, hloaded⟩ := runSteps_load_balanced hp hload
  have hin : ∀ {a b}, u.progByte a = some b → a < u.progLen.toNat := by
    intro a b hb
    rw [hbytes] at hb
    obtain ⟨ha, -⟩ := List.getElem?_eq_some_iff.1 hb
    rwa [hlen]
  refine ⟨k, _, hrun, rfl, ?_⟩
  simp only [← hbytes]
  exact ⟨fun m hm => hloaded.exists_close (hin hm) hm, fun j hj => hloaded.exists_open (hin hj) hj,
    fun a => ⟨hloaded.bracket_of_entry, fun hb => hloaded.entry_of_bracket (hb.elim hin hin) hb⟩⟩

end Sys2Proof.Machine
end

section
/-! SUPPORT. The ports and what moves on them (spec/20_memory.md R53 to R57): which step changes `PHASE`, which
takes from `load` and `in` and which emits on `out`, what holds, what the host's moves keep, and that no step
stops under the invariant. -/

namespace Sys2Proof.Machine
variable {s t : State} {i : Instr} {n : Nat} {v : Byte}

/-! ## Holds -/

/-- A state that a step leaves as it is stays so for any number of steps. -/
theorem runSteps_of_fixed (h : step s = .next s) (k : Nat) : runSteps k s = .next s := by
  induction k with
  | zero => rfl
  | succ k ih => rw [runSteps_succ h, ih]

theorem State.setHold_self {h : Hold} (hh : s.hold = h) : s.setHold h = s := by
  subst hh
  rfl

/-- A held READ runs READ's own transfer again (R55). -/
theorem step_heldInput (hr : s.rst = false) (hp : s.phase = .run) (hh : s.hold = .input) :
    step s = inputTransfer s := by
  rw [step_run hr hp, runStep, hh]

/-- A held WRITE runs WRITE's own transfer again, with the value it executed with (R56). -/
theorem step_heldOutput (hr : s.rst = false) (hp : s.phase = .run) (hh : s.hold = .output v) :
    step s = outputTransfer v s := by
  rw [step_run hr hp, runStep, hh]

theorem step_copyHeld (hr : s.rst = false) (hp : s.phase = .load) (hl : s.loader = .copy n)
    (hn : n < s.params.progCap) (hq : s.loadPort = []) : step s = .next s := by
  simp [step_load hr hp, loadStep, hl, copyStep, hn, hq]

theorem step_heldInput_unanswered (hr : s.rst = false) (hp : s.phase = .run) (hh : s.hold = .input)
    (hin : s.inPort = []) (he : s.inEnded = false) : step s = .next s := by
  rw [step_heldInput hr hp hh, (InputCase.held hin he).eq, State.setHold_self hh]

theorem step_heldOutput_unaccepted (hr : s.rst = false) (hp : s.phase = .run) (hh : s.hold = .output v)
    (hready : s.outReady = false) : step s = .next s := by
  rw [step_heldOutput hr hp hh, (OutputCase.held hready).eq, State.setHold_self hh]

/-! ## The changes of `PHASE` (R57) -/

theorem State.fetches.rst_eq {b : Byte} (hf : s.fetches b) : s.rst = false := by
  obtain ⟨⟨hr, -⟩, -⟩ := hf
  exact hr

theorem InputCase.phase_changed (h : InputCase s t) (hp : t.phase ≠ s.phase) :
    t.phase = .faulted ∧ t.cause ≠ .none := by
  cases h with
  | fault => exact ⟨rfl, nofun⟩
  | byte | held | unchanged | zero | allOnes => exact absurd rfl hp

theorem OutputCase.phase_eq (h : OutputCase v s t) : t.phase = s.phase := by rw [h.eq_update]

/-- An execute part changes `PHASE` only by a fault (R138). -/
theorem ExecCase.phase_changed (h : ExecCase s i t) (hp : t.phase ≠ s.phase) :
    t.phase = .faulted ∧ t.cause ≠ .none := by
  cases h with
  | jfMiss | jbMiss => exact ⟨rfl, nofun⟩
  | write _ t h => exact absurd h.phase_eq hp
  | read t h => exact h.phase_changed hp
  | _ => exact absurd rfl hp

/-- Settles O13: the cases of a step that change `PHASE` are R57's transitions. -/
theorem phaseChangesOnlyAtItsTransitions : Obligations.PhaseChangesOnlyAtItsTransitions := by
  intro s t hstep hne
  cases step_next hstep with
  | reset hr => exact .inl ⟨hr, rfl⟩
  | release hr hp => exact .inr (.inl ⟨hr, hp, rfl⟩)
  | scanDone hr hp i hl hi hk => exact .inr (.inr (.inl ⟨hr, hp, rfl, hk, i, hl, hi⟩))
  | halt hrun he => exact .inr (.inr (.inr (.inl ⟨hrun, he, rfl⟩)))
  | copyError hr hp | scanUnbalancedClose hr hp | scanUnbalancedOpen hr hp =>
    exact .inr (.inr (.inr (.inr ⟨hr, .inl hp, rfl, nofun⟩)))
  | exec b hf t hx => exact .inr (.inr (.inr (.inr ⟨hf.rst_eq, .inr hf.phase_eq, hx.phase_changed hne⟩)))
  | input hr hp _ t hx => exact .inr (.inr (.inr (.inr ⟨hr, .inr hp, hx.phase_changed hne⟩)))
  | output _ _ _ _ t hx => exact absurd hx.phase_eq hne
  | _ => exact absurd rfl hne

/-! ## The load port (R54) -/

/-- A step that changes the load port takes its first event in the copy. -/
theorem StepCase.loadPort_taken (h : StepCase s t) (hne : t.loadPort ≠ s.loadPort) :
    s.rst = false ∧ s.phase = .load
      ∧ ∃ n e, s.loader = .copy n ∧ n < s.params.progCap ∧ s.loadPort = e :: t.loadPort := by
  cases h with
  | copyByte hr hp n hl hn b rest hq => exact ⟨hr, hp, n, .byte b, hl, hn, hq⟩
  | copyEnded hr hp n hl hn rest hq => exact ⟨hr, hp, n, .ended, hl, hn, hq⟩
  | copyError hr hp n hl hn rest hq => exact ⟨hr, hp, n, .error, hl, hn, hq⟩
  | exec _ _ t hx => exact absurd hx.engineFrame.loadPort hne
  | input _ _ _ t hx => exact absurd hx.engineFrame.loadPort hne
  | output _ _ _ _ t hx => exact absurd hx.engineFrame.loadPort hne
  | _ => exact absurd rfl hne

/-- Without reset no step leads from the scan back to the copy. -/
theorem StepCase.scan_goes_on (h : StepCase s t) (hr : s.rst = false) (hl : s.loader = .scan n) :
    ∃ j, t.loader = .scan j := by
  cases h with
  | reset hr' => rw [hr] at hr'; contradiction
  | copyFull _ _ m hl' | copyHeld _ _ m hl' | copyByte _ _ m hl' | copyEnded _ _ m hl' | copyError _ _ m hl' =>
    rw [hl] at hl'; contradiction
  | scanOpen | scanClose | scanOther => exact ⟨_, rfl⟩
  | exec _ _ t hx => exact ⟨n, hx.engineFrame.loader.trans hl⟩
  | input _ _ _ t hx => exact ⟨n, hx.engineFrame.loader.trans hl⟩
  | output _ _ _ _ t hx => exact ⟨n, hx.engineFrame.loader.trans hl⟩
  | _ => exact ⟨n, hl⟩

/-- Settles O30: only the copy takes an event, the scan never leads back to it, and it holds on an empty port. -/
theorem loadPortIsReadOnlyByTheCopy : Obligations.LoadPortIsReadOnlyByTheCopy :=
  ⟨fun _ _ hstep hne => (step_next hstep).loadPort_taken hne,
    fun _ _ _ hr hl hstep => (step_next hstep).scan_goes_on hr hl,
    fun _ _ hr hp hl hn hq => runSteps_of_fixed (step_copyHeld hr hp hl hn hq)⟩

/-! ## The input port (R53, R55) -/

theorem InputCase.inPort_taken (h : InputCase s t) (hne : t.inPort ≠ s.inPort) :
    ∃ b, s.inPort = b :: t.inPort := by
  cases h with
  | byte b rest hin => exact ⟨b, hin⟩
  | held | unchanged | zero | allOnes | fault => exact absurd rfl hne

/-- A step that changes the input port takes its first byte, for a READ that is fetched or held. -/
theorem StepCase.inPort_taken (h : StepCase s t) (hne : t.inPort ≠ s.inPort) :
    s.rst = false ∧ ((∃ b, s.fetches b ∧ decode b = .read) ∨ (s.phase = .run ∧ s.hold = .input))
      ∧ ∃ b, s.inPort = b :: t.inPort := by
  cases h with
  | exec b hf t hx =>
    have hread : decode b = .read := by
      by_contra hread
      exact hne (hx.inPort_eq hread)
    rw [hread] at hx
    cases hx with
    | read t hx => exact ⟨hf.rst_eq, .inl ⟨b, hf, hread⟩, hx.inPort_taken hne⟩
  | input hr hp hh t hx => exact ⟨hr, .inr ⟨hp, hh⟩, hx.inPort_taken hne⟩
  | output _ _ _ _ t hx =>
    rw [hx.eq_update] at hne
    exact absurd rfl hne
  | _ => exact absurd rfl hne

/-- Settles O31: only READ's transfer takes a byte, and a held READ runs that transfer again. -/
theorem inputPortIsReadOnlyByRead : Obligations.InputPortIsReadOnlyByRead :=
  ⟨fun _ _ hstep hne => (step_next hstep).inPort_taken hne,
    fun _ hr hp hh hin he => runSteps_of_fixed (step_heldInput_unanswered hr hp hh hin he),
    fun _ hr hp hh => step_heldInput hr hp hh⟩

/-- Without reset no move of the host reopens an ended stream (log entry 13). -/
theorem hostMove_endOfInput (m : HostMove) (hin : s.inPort = []) (he : s.inEnded = true) (hr : s.rst = false) :
    (hostMove m s).inPort = [] ∧ (hostMove m s).inEnded = true := by
  cases m with
  | assertRst | releaseRst | offerLoad | acceptOutput => exact ⟨hin, he⟩
  | endInput => exact ⟨hin, rfl⟩
  | offerInput b => simp [hostMove, hin, he]
  | newStreams load input ended => simp [hostMove, hin, he, hr]

/-- Settles O32: a step only takes bytes, of which an exhausted stream has none, and it keeps the end mark. -/
theorem endOfInputIsForever : Obligations.EndOfInputIsForever := by
  refine ⟨fun s t hin he hstep => ?_, fun s m => hostMove_endOfInput m⟩
  obtain ⟨-, -, hended, -⟩ := stepLeavesParametersRstInputEndAndReadiness s t hstep
  refine ⟨?_, hended.trans he⟩
  by_contra hne
  obtain ⟨-, -, b, hb⟩ := (step_next hstep).inPort_taken (by rwa [hin])
  rw [hin] at hb
  contradiction

/-! ## The output port (R56) -/

theorem OutputCase.outStream_grown (h : OutputCase v s t) (hne : t.outStream ≠ s.outStream) :
    t.outStream = s.outStream ++ [v] ∧ s.outReady = true := by
  cases h with
  | accepted hready => exact ⟨rfl, hready⟩
  | held => exact absurd rfl hne

/-- Without reset, a step that changes the output stream emits one byte, for a WRITE that is fetched or held. -/
theorem StepCase.outStream_grown (h : StepCase s t) (hr : s.rst = false) (hne : t.outStream ≠ s.outStream) :
    ∃ v, t.outStream = s.outStream ++ [v] ∧ s.outReady = true
      ∧ ((∃ b, s.fetches b ∧ decode b = .write ∧ v = s.currentCell) ∨ (s.phase = .run ∧ s.hold = .output v)) := by
  cases h with
  | reset hr' => rw [hr] at hr'; contradiction
  | exec b hf t hx =>
    have hwrite : decode b = .write := by
      by_contra hwrite
      exact hne (hx.outStream_eq hwrite)
    rw [hwrite] at hx
    cases hx with
    | write _ t hx =>
      obtain ⟨hout, hready⟩ := hx.outStream_grown hne
      exact ⟨_, hout, hready, .inl ⟨b, hf, hwrite, rfl⟩⟩
  | output _ hp v hh t hx =>
    obtain ⟨hout, hready⟩ := hx.outStream_grown hne
    exact ⟨v, hout, hready, .inr ⟨hp, hh⟩⟩
  | input _ _ _ t hx =>
    rw [hx.eq_update] at hne
    exact absurd rfl hne
  | _ => exact absurd rfl hne

/-- A WRITE that the host does not accept holds, with `pc` advanced. -/
theorem step_write_unaccepted (hf : s.fetches writeByte) (hd : s.dpInRange) (hready : s.outReady = false) :
    step s = .next ((advancePc s).setHold (.output s.currentCell)) :=
  (step_fetches hf).trans (ExecCase.write (s := advancePc s) hd _ (.held hready)).eq

/-- Settles O33: only WRITE's transfer emits, and a held WRITE runs that transfer again. -/
theorem outputPortIsWrittenOnlyByWrite : Obligations.OutputPortIsWrittenOnlyByWrite :=
  ⟨fun _ _ hr hstep hne => (step_next hstep).outStream_grown hr hne,
    fun _ hf hd hready => step_write_unaccepted hf hd hready,
    fun _ _ hr hp hh hready => runSteps_of_fixed (step_heldOutput_unaccepted hr hp hh hready),
    fun _ _ hr hp hh hready => (step_heldOutput hr hp hh).trans (OutputCase.accepted hready).eq⟩

/-! ## The host's moves keep the invariant (R147) -/

/-- The load phase's part of the invariant is read off the loader's own state and `PROG_CAP` alone. -/
theorem State.loading.congr (h : s.loading) (hparams : t.params = s.params) (hloader : t.loader = s.loader)
    (hlen : t.progLen = s.progLen) (hprog : t.prog = s.prog) (hjt : t.jt = s.jt) (hstk : t.stk = s.stk) :
    t.loading := by
  have hp : ∀ a, t.progByte a = s.progByte a := fun a => by simp only [State.progByte, hprog]
  have hj : ∀ k, t.jtTarget k = s.jtTarget k := fun k => by simp only [State.jtTarget, hjt]
  cases hl : s.loader with
  | copy n =>
    simpa only [State.loading, hloader, hl, State.copying, State.loadedBelow, hparams, hlen, hjt, hstk, hp] using h
  | scan i =>
    simp only [State.loading, hloader, hl, State.scanning, State.loadedBelow, hlen, hp] at h ⊢
    obtain ⟨hi, hbelow, hscan⟩ := h
    exact ⟨hi, hbelow, State.scannedTo_congr hp hj hstk hscan⟩

/-- The invariant does not speak of the host's side of the ports. -/
theorem State.Inv.of_hostSide (h : s.Inv) (ht : t = { s with
    rst := t.rst, loadPort := t.loadPort, inPort := t.inPort, inEnded := t.inEnded
    outReady := t.outReady }) : t.Inv := by
  rw [ht]
  exact {
    h with
    inLoad := fun hp => by
      obtain ⟨hfresh, hload⟩ := h.inLoad hp
      exact ⟨hfresh, hload.congr rfl rfl rfl rfl rfl rfl⟩
    inRun := fun hp => (h.inRun hp).congr rfl rfl rfl rfl
    inHalted := fun hp => by
      obtain ⟨hloaded, hend⟩ := h.inHalted hp
      exact ⟨hloaded.congr rfl rfl rfl rfl, hend⟩ }

/-- Settles O51: asserting `rst` leaves the reset values, and every other move changes only the host's side of
the ports. -/
theorem everyHostMoveKeepsTheInvariant : Obligations.EveryHostMoveKeepsTheInvariant := by
  intro s m h
  cases m with
  | assertRst => exact resetEntry_inv (s := { s with rst := true }) h.paramsWf
  | releaseRst | offerLoad | endInput | acceptOutput => exact h.of_hostSide rfl
  | offerInput b =>
    simp only [hostMove]
    split
    · exact h
    · exact h.of_hostSide rfl
  | newStreams load input ended =>
    simp only [hostMove]
    split
    · exact h.of_hostSide rfl
    · exact h

/-! ## No step stops under the invariant -/

/-- The release of `rst` leads to LOAD (R150). -/
theorem step_release (hr : s.rst = false) (hp : s.phase = .reset) : step s = .next (s.setStatus .load .none) := by
  simp [step, hr, hp]

/-- The scan never meets a position nothing has loaded. -/
theorem State.Inv.loadStep_answers (h : s.Inv) (hp : s.phase = .load) : ∃ t, loadStep s = .next t := by
  cases hl : s.loader with
  | copy n => exact ⟨copyStep n s, by rw [loadStep, hl]⟩
  | scan i =>
    obtain ⟨-, hbelow, -⟩ := h.scanning hp hl
    by_cases hi : i < s.progLen.toNat
    · obtain ⟨b, hb⟩ := hbelow i hi
      exact ⟨scanByte i b s, by simp only [loadStep, hl, scanStep, if_pos hi, hb]⟩
    · exact ⟨finishScan s, by simp only [loadStep, hl, scanStep, if_neg hi]⟩

/-- At a step boundary of a loaded program the next byte is there, or the program has ended. -/
theorem State.Inv.fetches_or_ends (h : s.Inv) (hr : s.rst = false) (hp : s.phase = .run) (hh : s.hold = .free) :
    (∃ b, s.fetches b) ∨ s.pc = s.progLen := by
  obtain ⟨-, hbelow, -⟩ := h.inRun hp
  rcases Nat.lt_or_eq_of_le h.pcBound with hlt | heq
  · obtain ⟨b, hb⟩ := hbelow _ hlt
    exact .inl ⟨b, ⟨hr, hp, hh⟩, hlt, hb⟩
  · exact .inr (BitVec.eq_of_toNat_eq heq)

theorem State.Inv.run_answers (h : s.Inv) (hr : s.rst = false) (hp : s.phase = .run) : ∃ t, step s = .next t := by
  cases hh : s.hold with
  | input =>
    rw [step_heldInput hr hp hh]
    exact inputTransfer_answers h.dpBound
  | output v =>
    rw [step_heldOutput hr hp hh]
    exact outputTransfer_answers v s
  | free =>
    rcases h.fetches_or_ends hr hp hh with ⟨b, hf⟩ | he
    · rw [step_fetches hf]
      exact exec_answers (decode b) (s := advancePc s) h.dpBound
    · exact ⟨_, step_halts ⟨hr, hp, hh⟩ he⟩

/-- Settles O52: reset and the terminal phases always answer, and the load and run phases do by the invariant. -/
theorem stepNeverStopsUnderTheInvariant : Obligations.StepNeverStopsUnderTheInvariant := by
  intro s h
  cases hr : s.rst with
  | true => exact ⟨_, step_reset hr⟩
  | false =>
    cases hp : s.phase with
    | reset => exact ⟨_, step_release hr hp⟩
    | load =>
      rw [step_load hr hp]
      exact h.loadStep_answers hp
    | run => exact h.run_answers hr hp
    | halted => exact ⟨s, step_ended hr (.inl hp)⟩
    | faulted => exact ⟨s, step_ended hr (.inr hp)⟩

end Sys2Proof.Machine
end

section
/-! SUPPORT. Encoding (spec/30_encoding.md): instructions and bytes are the same thing, each way (R60 to R69), and
the word the host places is the instruction the next step runs. How a load ends (spec/70_reset_and_hazards.md R157,
R158). -/

namespace Sys2Proof
variable {b : Byte} {i : Instr}

/-! ## Bytes and instructions -/

/-- The decoder reads a well-formed instruction back from its byte (R65). -/
theorem decode_encodeByte (hi : i.wf = true) : decode (encodeByte i) = i := by
  cases i with
  | inc => exact Laws.EncodeDecode.inc hi
  | dec => exact Laws.EncodeDecode.dec hi
  | right => exact Laws.EncodeDecode.right hi
  | left => exact Laws.EncodeDecode.left hi
  | jf => exact Laws.EncodeDecode.jf hi
  | jb => exact Laws.EncodeDecode.jb hi
  | write => exact Laws.EncodeDecode.write hi
  | read => exact Laws.EncodeDecode.read hi
  | nop byte => exact Laws.EncodeDecode.nop byte hi

/-- A byte decodes to a well-formed instruction exactly when it is that instruction's byte (R63, R64). -/
theorem decode_eq_iff (hi : i.wf = true) : decode b = i ↔ b = encodeByte i where
  mp h := by rw [← h, encodeByte_decode]
  mpr h := by rw [h, decode_encodeByte hi]

/-- A byte is a NOP exactly when it is none of the eight (R64). -/
theorem decode_eq_nop_iff : decode b = .nop b ↔ b ∉ opcodeBytes where
  mp h := nop_wf_iff.1 (h ▸ decode_wf b)
  mpr h := decode_of_notMem h

/-- Settles O1: each of the eight is well formed, so only its own byte decodes to it. -/
theorem opcodeMapComparesAllBits : Obligations.OpcodeMapComparesAllBits := fun _ =>
  ⟨decode_eq_iff rfl, decode_eq_iff rfl, decode_eq_iff rfl, decode_eq_iff rfl, decode_eq_iff rfl, decode_eq_iff rfl,
    decode_eq_iff rfl, decode_eq_iff rfl⟩

/-- The bytes outside the opcode map, as R64 lists them. -/
theorem notMem_opcodeBytes_iff : b ∉ opcodeBytes ↔
    (b.toNat ≤ 0x2A ∨ (0x2F ≤ b.toNat ∧ b.toNat ≤ 0x3B) ∨ b.toNat = 0x3D
      ∨ (0x3F ≤ b.toNat ∧ b.toNat ≤ 0x5A) ∨ b.toNat = 0x5C ∨ 0x5E ≤ b.toNat) := by
  simp only [opcodeBytes, List.mem_cons, List.not_mem_nil, or_false, ← BitVec.toNat_inj, BitVec.toNat_ofNat]
  omega

/-- Settles O2: a byte is a NOP when it is none of the eight, and 248 of the 256 values are. -/
theorem everyOtherByteIsNop : Obligations.EveryOtherByteIsNop := by
  refine ⟨fun b => decode_eq_nop_iff.trans notMem_opcodeBytes_iff, ?_⟩
  simp only [decode_eq_nop_iff]
  decide +kernel

/-! ## Sequences -/

theorem decodeBytes_encode_append (hi : i.wf = true) (rest : List Byte) :
    decodeBytes (encode i ++ rest) = .instr i rest := by
  rw [encode, List.singleton_append, decodeBytes_cons, decode_encodeByte hi]

/-- Settles O3: an instruction's byte is decoded back, and a sequence with a byte is never rejected. -/
theorem decoderTakesExactlyOneByte : Obligations.DecoderTakesExactlyOneByte := by
  refine ⟨fun i rest hi => ⟨rfl, decodeBytes_encode_append hi rest⟩, fun bs => ?_⟩
  cases bs with
  | nil => exact iff_of_true rfl rfl
  | cons b rest => exact iff_of_false (by simp) (by simp)

@[simp] theorem decodeProgram_cons (b : Byte) (rest : List Byte) :
    decodeProgram (b :: rest) = decode b :: decodeProgram rest := rfl

/-- The program text of well-formed instructions decodes to them (R60, R69). -/
theorem decodeProgram_encodeProgram {is : List Instr} (his : ∀ i ∈ is, i.wf = true) :
    decodeProgram (encodeProgram is) = is := by
  induction is with
  | nil => rfl
  | cons i is ih =>
    obtain ⟨hi, his⟩ := List.forall_mem_cons.1 his
    rw [encodeProgram_cons, decodeProgram_cons, decode_encodeByte hi, ih his]

/-- The instructions of a program text encode to that text (R69). -/
theorem encodeProgram_decodeProgram (bs : List Byte) : encodeProgram (decodeProgram bs) = bs := by
  induction bs with
  | nil => rfl
  | cons b bs ih => rw [decodeProgram_cons, encodeProgram_cons, encodeByte_decode, ih]

/-- The instructions of a program text are well formed (R66). -/
theorem decodeProgram_wf (bs : List Byte) : ∀ i ∈ decodeProgram bs, i.wf = true := by
  induction bs with
  | nil => exact List.forall_mem_nil _
  | cons b bs ih => exact List.forall_mem_cons.2 ⟨decode_wf b, ih⟩

/-- Settles O4: the two inductions, over the instructions and over the bytes. -/
theorem decodeAndEncodeAgreeOnPrograms : Obligations.DecodeAndEncodeAgreeOnPrograms :=
  ⟨fun _ => decodeProgram_encodeProgram, fun bs => ⟨encodeProgram_decodeProgram bs, decodeProgram_wf bs⟩⟩

/-! ## Bracket depth -/

/-- The only byte that stops the depth count is a `]` with no bracket open. -/
theorem bracketDepth_singleton_eq_none {d : Nat} (h : bracketDepth [b] d = none) : b = jbByte ∧ d = 0 := by
  by_cases hf : b = jfByte
  · subst hf; simp at h
  by_cases hj : b = jbByte
  · subst hj
    cases d with
    | zero => exact ⟨rfl, rfl⟩
    | succ d => simp at h
  · simp [bracketDepth_other hf hj] at h

end Sys2Proof

namespace Sys2Proof.Machine
variable {s t : State} {text : List Byte} {i : Nat} {b : Byte}

/-! ## The placed word (log entry 9) -/

/-- A byte placed at a `pc` that `PROG_LEN` can reach past is the next one fetched. -/
theorem placeInstr_fetches (hpc : s.pc.toNat < 65535) (b : Byte) : (placeInstr s b).fetches b := by
  refine ⟨⟨rfl, rfl, rfl⟩, ?_, Sparse.lookup_put_same _ _ _⟩
  simp only [placeInstr]
  split
  · assumption
  · bv_omega

/-- Settles O54: the placed byte is fetched, and the step runs what it decodes to. -/
theorem placedWordIsTheNextInstruction : Obligations.PlacedWordIsTheNextInstruction := fun _ w hpc =>
  ⟨decode (tableByte 8 w), rfl, step_fetches (placeInstr_fetches hpc (tableByte 8 w))⟩

/-! ## How a load ends (R132, R133, R157, R158) -/

/-- No turn of the scan writes the engine's state (R33). -/
theorem ScanTurn.engineFresh (ht : ScanTurn s i b t) (h : s.engineFresh) : t.engineFresh := by
  cases ht <;> exact h

/-- From reset, the scan of a text whose brackets count to `d` reaches its end with `d` brackets on the stack. -/
theorem runSteps_load_counted {p : Params} {bs : List Byte} (hp : p.wf = true) {d : Nat}
    (hd : bracketDepth (bs.take p.progCap) 0 = some d) :
    ∃ k u, runSteps k (bootState p bs) = .next (finishScan u)
      ∧ u.scansText (bs.take p.progCap) (bs.take p.progCap).length ∧ u.stk.length = d ∧ u.engineFresh := by
  obtain ⟨k, u, hscan, hu, hstk, hfresh⟩ := runSteps_scan (P := fun _ s => s.engineFresh)
    (fun _ _ ht h => ht.engineFresh h) (scanStart_scansText hp bs) (Nat.zero_le _) ⟨rfl, rfl, rfl⟩ hd
  exact ⟨_, u, runSteps_add (runSteps_bootState p bs) _ (runSteps_add hscan 1 (runSteps_succ hu.step_finish 0)),
    hu, hstk, hfresh⟩

/-- Where the depth count fails, the scan stops at once or goes on to a place where it still fails. -/
theorem scanByte_of_depth_none {rest : List Byte} (hd : bracketDepth (b :: rest) s.stk.length = none) :
    scanByte i b s = s.setStatus .faulted .unbalancedClose
      ∨ ScanTurn s i b (scanByte i b s) ∧ bracketDepth rest (scanByte i b s).stk.length = none := by
  have hsplit : bracketDepth (b :: rest) s.stk.length = (bracketDepth [b] s.stk.length).bind (bracketDepth rest) :=
    bracketDepth_append [b] rest _
  cases hb : bracketDepth [b] s.stk.length with
  | none =>
    obtain ⟨rfl, hlen⟩ := bracketDepth_singleton_eq_none hb
    have hempty : s.stk = [] := List.length_eq_zero_iff.1 hlen
    exact .inl (by simp [scanByte, hempty])
  | some d =>
    obtain ⟨hturn, hstk⟩ := scanByte_turn (i := i) hb
    rw [hb, hd] at hsplit
    exact .inr ⟨hturn, by rw [Option.some.inj hstk]; exact hsplit.symm⟩

/-- A text in which a `]` closes nothing ends the scan in UNBALANCED_CLOSE (R132). -/
theorem runSteps_scan_closes_nothing (h : s.scansText text i)
    (hd : bracketDepth (text.drop i) s.stk.length = none) :
    ∃ k t, runSteps k s = .next t ∧ t.phase = .faulted ∧ t.cause = .unbalancedClose := by
  induction hrest : text.drop i generalizing s i with
  | nil => simp [hrest] at hd
  | cons b rest ih =>
    have hb : text[i]? = some b := by rw [← List.head?_drop, hrest]; rfl
    have hnext : text.drop (i + 1) = rest := by rw [← List.drop_drop, hrest]; rfl
    rw [hrest] at hd
    rcases scanByte_of_depth_none (i := i) hd with hfault | ⟨ht, hd'⟩
    · exact ⟨1, _, runSteps_succ (h.step_scan hb) 0, by rw [hfault]; exact ⟨rfl, rfl⟩⟩
    · obtain ⟨k, t, hrun, ht⟩ := ih (ht.scansText h) (by rwa [hnext]) hnext
      exact ⟨k + 1, t, (runSteps_succ (h.step_scan hb) k).trans hrun, ht⟩

/-- Settles O45: the depth of the text kept decides how the scan ends: a `]` that closes nothing stops it, open
brackets are left on the stack behind it, or it enters the run phase. -/
theorem loadSucceedsExactlyWhenBalanced : Obligations.LoadSucceedsExactlyWhenBalanced := by
  intro p bs hp
  simp only [Program.loadable, Program.wf]
  cases hd : bracketDepth (bs.take p.progCap) 0 with
  | none =>
    obtain ⟨k, t, hscan, hphase, hcause⟩ := runSteps_scan_closes_nothing (scanStart_scansText hp bs) hd
    exact ⟨_, t, runSteps_add (runSteps_bootState p bs) k hscan, by simp [hphase], by simp [hphase],
      fun _ => ⟨hphase, by simp [hcause]⟩⟩
  | some d =>
    obtain ⟨k, u, hrun, hu, hstk, hpc, hdp, htape⟩ := runSteps_load_counted hp hd
    cases d with
    | zero =>
      have hempty : u.stk = [] := List.length_eq_zero_iff.1 hstk
      have hend : finishScan u = u.setStatus .run .none := by rw [finishScan, hempty]
      have hcell : ∀ a, u.cell a = 0#8 := fun a => by rw [State.cell, htape]; rfl
      exact ⟨k, _, hrun.trans (congrArg _ hend), by simp,
        fun _ => ⟨hpc, hdp, hcell, hempty, hu.length, fun a _ => hu.bytes a⟩, by simp⟩
    | succ d =>
      obtain ⟨m, stk, hopen⟩ := List.exists_cons_of_length_eq_add_one hstk
      have hend : finishScan u = u.setStatus .faulted .unbalancedOpen := by rw [finishScan, hopen]; rfl
      exact ⟨k, _, hrun.trans (congrArg _ hend), by simp, by simp, fun _ => ⟨rfl, by simp⟩⟩

end Sys2Proof.Machine
end

section
/-! SUPPORT. The execution cycle (spec/40_cycle.md): the fetch and where the next `pc` comes from (R80, R84), the halt
at the end of the program (R81 to R83), and what a run does outside RUN and behind its end (R85 to R87). -/

namespace Sys2Proof.Machine
variable {s t : State} {i : Instr} {n : Nat} {b : Byte}

/-! ## The next `pc` (R80, R84) -/

/-- Settles O7: R80's fetch is what `step_fetches` says of a step. -/
theorem stepRunsTheDecodedInstruction : Obligations.StepRunsTheDecodedInstruction :=
  fun _ _ hf => step_fetches hf

/-- An execute part leaves `pc` alone or takes it from the jump-table entry of a bracket. -/
theorem ExecCase.pc_sources (h : ExecCase s i t) :
    t.pc = s.pc ∨ (i = .jf ∨ i = .jb) ∧ s.jtTarget s.jumpKey = some t.pc := by
  cases h with
  | jfJump _ _ target ht => exact .inr ⟨.inl rfl, ht⟩
  | jbJump _ _ target ht => exact .inr ⟨.inr rfl, ht⟩
  | write _ t h => exact .inl (by rw [h.eq_update])
  | read t h => exact .inl (by rw [h.eq_update])
  | _ => exact .inl rfl

/-- Settles O8: the execute part starts with `pc + 1`, where the jump key is the bracket's own position. -/
theorem nextPcHasTwoSources : Obligations.NextPcHasTwoSources := by
  intro s t b hf hstep
  rw [step_fetches hf] at hstep
  have hpc := (exec_next hstep).pc_sources
  rwa [jumpKey_advancePc] at hpc

/-- Settles O35: a fetch is below `PROG_LEN`, and the bounds are the invariant's, which the step keeps. -/
theorem pcNeverWraps : Obligations.PcNeverWraps := by
  refine ⟨fun s b h hf => ⟨hf.advancePc_toNat, (hf.inv_advancePc h).pcBound⟩,
    fun s t h hstep => ((step_next hstep).inv h).pcBound, fun s h hcap => ?_⟩
  have hpc := h.pcBound
  have hlen := h.lenBound
  omega

/-! ## The end of the program (R81, R83) -/

/-- A step boundary beyond the program stops the model by name (D20). -/
theorem step_beyond (h : s.running) (hlt : s.progLen.toNat < s.pc.toNat) : step s = .fault .pcBeyondProgram := by
  obtain ⟨hr, hp, hh⟩ := h
  have hne : s.pc ≠ s.progLen := fun he => by simp [he] at hlt
  rw [step_run hr hp, runStep, hh]
  simp only [fetchStep, if_neg hlt.not_gt, if_neg hne]

/-- Settles O9: the two ways a step boundary is not below `PROG_LEN`. -/
theorem programEndHalts : Obligations.ProgramEndHalts :=
  ⟨fun _ hrun he => step_halts hrun he, fun _ hrun hlt => step_beyond hrun hlt⟩

/-- Settles O10: the bound of `pc` leaves an empty program no other `pc` than its end. -/
theorem emptyProgramHaltsAtOnce : Obligations.EmptyProgramHaltsAtOnce := by
  intro s h hrun hlen
  have hpc : s.pc = s.progLen := by
    have := h.pcBound
    simp only [hlen] at this ⊢
    bv_omega
  exact step_halts hrun hpc

/-! ## NOP (R82) -/

theorem step_nop (hf : s.fetches b) (hb : decode b = .nop b) : step s = .next (advancePc s) := by
  rw [step_fetches hf, hb, (ExecCase.nop b).eq]

/-- A stretch of NOPs up to the end of the program takes one step a byte and moves `pc` there. -/
theorem runSteps_nops (hrun : s.running) (hn : s.pc.toNat + n = s.progLen.toNat)
    (hnop : ∀ a, s.pc.toNat ≤ a → a < s.progLen.toNat → ∃ b, s.progByte a = some b ∧ decode b = .nop b) :
    runSteps n s = .next (s.setPc s.progLen) := by
  induction n generalizing s with
  | zero =>
    have hpc : s.pc = s.progLen := BitVec.eq_of_toNat_eq hn
    rw [← hpc]
    rfl
  | succ n ih =>
    have hlt : s.pc.toNat < s.progLen.toNat := by omega
    obtain ⟨b, hbyte, hb⟩ := hnop _ le_rfl hlt
    have hf : s.fetches b := ⟨hrun, hlt, hbyte⟩
    have hpc := hf.advancePc_toNat
    have hn' : (advancePc s).pc.toNat + n = s.progLen.toNat := by omega
    have hnop' : ∀ a, (advancePc s).pc.toNat ≤ a → a < s.progLen.toNat →
        ∃ b, s.progByte a = some b ∧ decode b = .nop b := fun a ha => hnop a (by omega)
    rw [runSteps_succ (step_nop hf hb)]
    exact ih (s := advancePc s) hrun hn' hnop'

/-- Settles O15: the execute part of a NOP is none, and a stretch of them runs into the halt. -/
theorem nopOnlyAdvancesPc : Obligations.NopOnlyAdvancesPc := by
  refine ⟨fun b s => (ExecCase.nop b).eq, fun b s hf hb => step_nop hf hb, fun s hrun hle hnop => ?_⟩
  have hnops := runSteps_nops hrun (Nat.add_sub_cancel' hle) hnop
  have hhalt : step (s.setPc s.progLen) = .next (haltEntry (s.setPc s.progLen)) := step_halts hrun rfl
  exact runSteps_add hnops 1 (runSteps_succ hhalt 0)

/-! ## Outside RUN, and runs without an end (R85 to R87) -/

/-- An ended run stays as it is until `rst` (R86). -/
theorem runSteps_ended (hr : s.rst = false) (hp : s.phase = .halted ∨ s.phase = .faulted) (k : Nat) :
    runSteps k s = .next s :=
  runSteps_of_fixed (step_ended hr hp) k

/-- Settles O11: outside RUN a step keeps the loader's frame, and the terminal phases step to themselves. -/
theorem nothingExecutesOutsideRun : Obligations.NothingExecutesOutsideRun := by
  refine ⟨fun s t hr hp hstep => ?_, fun s hr hp => runSteps_ended hr hp, fun s hr => ⟨_, step_reset hr, rfl⟩⟩
  have hf := (step_next hstep).loaderFrame hr hp
  exact ⟨hf.pc, hf.dp, hf.tape, hf.inPort, hf.outStream, hf.hold⟩

/-- Settles O25: the jump back to the bracket's own position undoes the fetch's advance. -/
theorem emptyLoopRunsForever : Obligations.EmptyLoopRunsForever := by
  intro s hf hd hc hentry
  have hkey : (advancePc s).jtTarget (advancePc s).jumpKey = some s.pc := by
    rw [jumpKey_advancePc]
    exact hentry
  have hjump : ExecCase (advancePc s) .jb ((advancePc s).setPc s.pc) := .jbJump (s := advancePc s) hd hc s.pc hkey
  have hloop : step s = .next s := (step_fetches hf).trans hjump.eq
  exact runSteps_of_fixed hloop

theorem State.verdict_ended_iff : s.verdict ≠ .notFinished ↔ s.phase = .halted ∨ s.phase = .faulted := by
  cases hp : s.phase <;> simp [State.verdict, hp]

theorem State.verdict_succeeded_iff : s.verdict = .succeeded ↔ s.phase = .halted := by
  cases hp : s.phase <;> simp [State.verdict, hp]

/-- Settles O12: the verdict reads `PHASE`, and an ended run and a held one step to themselves. -/
theorem runEndsExactlyInHaltedOrFaulted : Obligations.RunEndsExactlyInHaltedOrFaulted := by
  refine ⟨fun s => State.verdict_ended_iff, fun s => State.verdict_succeeded_iff,
    fun s hr hv => runSteps_ended hr (State.verdict_ended_iff.1 hv), fun s hr hp hh hin he k => ?_⟩
  have hheld := step_heldInput_unanswered hr hp hh hin he
  exact ⟨s, runSteps_of_fixed hheld k, by simp [State.verdict, hp]⟩

end Sys2Proof.Machine
end

section
/-! SUPPORT. INC and DEC (spec/41_cell_arith.md): both add a constant to the current cell modulo 256 (R89), so a
sequence of them adds the sum of its constants, and one whose sum is 0 restores the state (R90, R91). -/

namespace Sys2Proof.Machine
variable {s : State} {i : Instr}

/-! ## Writing one cell twice, or back -/

theorem Memory.write_write {m : Memory} (h : Memory.wf m = true) (a : Nat) (v w : Byte) :
    Memory.write (Memory.write m a v) a w = Memory.write m a w := by
  have hv := Memory.wf_write h a v
  refine Memory.ext_of_wf (Memory.wf_write hv a w) (Memory.wf_write h a w) fun b => ?_
  rw [Memory.read_write hv, Memory.read_write h a b w]
  split
  · rfl
  · exact Memory.read_write_other m v ‹_›

theorem Memory.write_read {m : Memory} (h : Memory.wf m = true) (a : Nat) :
    Memory.write m a (Memory.read m a) = m := by
  refine Memory.ext_of_wf (Memory.wf_write h a _) h fun b => ?_
  rw [Memory.read_write h]
  split
  · rw [‹b = a›]
  · rfl

/-! ## The current cell -/

/-- The state with `v` in the current cell. -/
def State.setCurrentCell (s : State) (v : Byte) : State := s.setTape (Memory.write s.tape s.dp.toNat v)

theorem State.setCurrentCell_currentCell (h : Memory.wf s.tape = true) (v : Byte) :
    (s.setCurrentCell v).currentCell = v := Memory.read_write_same h _ v

theorem State.setCurrentCell_cell_other (s : State) (v : Byte) {a : Nat} (ha : a ≠ s.dp.toNat) :
    (s.setCurrentCell v).cell a = s.cell a := Memory.read_write_other s.tape v ha

theorem State.setCurrentCell_setCurrentCell (h : Memory.wf s.tape = true) (v w : Byte) :
    (s.setCurrentCell v).setCurrentCell w = s.setCurrentCell w :=
  congrArg s.setTape (Memory.write_write h s.dp.toNat v w)

theorem State.setCurrentCell_self (h : Memory.wf s.tape = true) : s.setCurrentCell s.currentCell = s :=
  congrArg s.setTape (Memory.write_read h s.dp.toNat)

/-! ## INC and DEC (R89 to R91) -/

/-- What an instruction of the family adds to the current cell, modulo 256: `-1` is `0xFF`. -/
def cellDelta : Instr → Byte
  | .inc => 1#8
  | .dec => -1#8
  | _ => 0#8

theorem exec_cellArith (hi : i = .inc ∨ i = .dec) (hd : s.dpInRange) :
    exec i s = .next (s.setCurrentCell (s.currentCell + cellDelta i)) := by
  rcases hi with rfl | rfl
  · exact (ExecCase.inc hd).eq
  · rw [(ExecCase.dec hd).eq, BitVec.sub_eq_add_neg]
    rfl

/-- One INC or DEC: it completes, changes the current cell alone, and adds its constant there. -/
theorem exec_cellArith_changes_currentCell_only (hi : i = .inc ∨ i = .dec) (hwf : Memory.wf s.tape = true)
    (hd : s.dpInRange) :
    ∃ t, exec i s = .next t ∧ t = { s with tape := t.tape } ∧ t.currentCell = s.currentCell + cellDelta i
      ∧ ∀ a, a ≠ s.dp.toNat → t.cell a = s.cell a :=
  ⟨_, exec_cellArith hi hd, rfl, State.setCurrentCell_currentCell hwf _,
    fun _ ha => s.setCurrentCell_cell_other _ ha⟩

/-- A sequence of INC and DEC adds the sum of its constants. -/
theorem execAll_cellArith {is : List Instr} (his : ∀ i ∈ is, i = .inc ∨ i = .dec) (hwf : Memory.wf s.tape = true)
    (hd : s.dpInRange) :
    execAll is s = .next (s.setCurrentCell (s.currentCell + (is.map cellDelta).sum)) := by
  induction is generalizing s with
  | nil => simp [execAll, State.setCurrentCell_self hwf]
  | cons i rest ih =>
    obtain ⟨hi, hrest⟩ := List.forall_mem_cons.1 his
    have hstep := exec_cellArith hi hd
    have htail := ih (s := s.setCurrentCell (s.currentCell + cellDelta i)) hrest (Memory.wf_write hwf _ _) hd
    rw [State.setCurrentCell_currentCell hwf, State.setCurrentCell_setCurrentCell hwf, add_assoc] at htail
    simp only [execAll, hstep, htail, List.map_cons, List.sum_cons]

/-- A sequence of INC and DEC whose constants cancel restores the whole state. -/
theorem execAll_cellArith_restores {is : List Instr} (his : ∀ i ∈ is, i = .inc ∨ i = .dec)
    (hsum : (is.map cellDelta).sum = 0) (hwf : Memory.wf s.tape = true) (hd : s.dpInRange) :
    execAll is s = .next s := by
  rw [execAll_cellArith his hwf hd, hsum, add_zero, State.setCurrentCell_self hwf]

/-- 256 INCs add 256, which is 0 in a cell. -/
theorem sum_cellDelta_replicate_inc : ((List.replicate 256 Instr.inc).map cellDelta).sum = 0 := by
  rw [List.map_replicate, List.sum_replicate]
  decide

/-- Settles O16: INC adds the constant 1, and 256 of them cancel. -/
theorem incAddsOneModulo256 : Obligations.IncAddsOneModulo256 := by
  refine ⟨decode_encodeByte (i := .inc) rfl, fun s hwf hd => ⟨?_, ?_⟩⟩
  · obtain ⟨t, hexec, hframe, hcell, hothers⟩ := exec_cellArith_changes_currentCell_only (.inl rfl) hwf hd
    refine ⟨t, hexec, hframe, ?_, hothers⟩
    rw [hcell]
    exact BitVec.toNat_add s.currentCell 1#8
  · have hinc : ∀ i ∈ List.replicate 256 Instr.inc, i = .inc ∨ i = .dec :=
      fun _ hi => .inl (List.eq_of_mem_replicate hi)
    exact execAll_cellArith_restores hinc sum_cellDelta_replicate_inc hwf hd

/-- Adding `0xFF` to a byte is subtracting 1 modulo 256, the mathematical remainder (R12). -/
theorem toNat_add_cellDelta_dec (v : Byte) : ((v + cellDelta .dec).toNat : Int) = ((v.toNat : Int) - 1) % 256 := by
  have hadd : (v + cellDelta .dec).toNat = (v.toNat + 255) % 256 := BitVec.toNat_add v (cellDelta .dec)
  omega

/-- Settles O17: DEC adds the constant `-1`, which cancels against INC's in either order. -/
theorem decSubtractsOneModulo256 : Obligations.DecSubtractsOneModulo256 := by
  refine ⟨decode_encodeByte (i := .dec) rfl, fun s hwf hd => ⟨?_, ?_, ?_⟩⟩
  · obtain ⟨t, hexec, hframe, hcell, hothers⟩ := exec_cellArith_changes_currentCell_only (.inr rfl) hwf hd
    exact ⟨t, hexec, hframe, hcell ▸ toNat_add_cellDelta_dec s.currentCell, hothers⟩
  · exact execAll_cellArith_restores (by simp) (by decide) hwf hd
  · exact execAll_cellArith_restores (by simp) (by decide) hwf hd

end Sys2Proof.Machine
end

section
/-! SUPPORT. RIGHT and LEFT (spec/42_tape_pointer.md): both move `dp` a constant way round the ring of `TAPE_CAP`
addresses (R100), so a sequence of them moves it by the sum of its constants, and one whose sum is a multiple of
`TAPE_CAP` restores the state (R102, R103). -/

namespace Sys2Proof.Machine
variable {s : State} {i : Instr}

/-! ## Moving `dp` round the ring -/

/-- The state with `dp` moved by `d`, modulo `TAPE_CAP`: the mathematical remainder (R12, R100). -/
def State.moveDp (s : State) (d : Int) : State :=
  s.setDp (BitVec.ofInt 16 ((s.dp.toNat + d) % s.params.tapeCap))

/-- The remainder fits `dp` (R7). -/
theorem State.moveDp_dp (hwf : s.params.wf = true) (d : Int) :
    ((s.moveDp d).dp.toNat : Int) = (s.dp.toNat + d) % s.params.tapeCap := by
  obtain ⟨-, -, hpos, hcap⟩ := Params.wf_iff.1 hwf
  have hnonneg := Int.emod_nonneg (s.dp.toNat + d) (b := s.params.tapeCap) (by omega)
  have hlt := Int.emod_lt_of_pos (s.dp.toNat + d) (b := s.params.tapeCap) (by omega)
  rw [State.moveDp, State.setDp_dp, BitVec.toNat_ofInt]
  omega

theorem State.moveDp_dpInRange (hwf : s.params.wf = true) (d : Int) : (s.moveDp d).dpInRange := by
  obtain ⟨-, -, hpos, -⟩ := Params.wf_iff.1 hwf
  have hlt := Int.emod_lt_of_pos (s.dp.toNat + d) (b := s.params.tapeCap) (by omega)
  rw [← State.moveDp_dp hwf] at hlt
  exact Int.ofNat_lt.1 hlt

theorem State.moveDp_moveDp (hwf : s.params.wf = true) (d e : Int) :
    (s.moveDp d).moveDp e = s.moveDp (d + e) := by
  have hsum : ((s.moveDp d).dp.toNat + e) % s.params.tapeCap = (s.dp.toNat + (d + e)) % s.params.tapeCap := by
    rw [State.moveDp_dp hwf, Int.emod_add_emod, add_assoc]
  exact congrArg (fun z : Int => s.setDp (BitVec.ofInt 16 z)) hsum

/-- Whole rounds lead back, from an address of the tape. -/
theorem State.moveDp_of_dvd (hd : s.dpInRange) {d : Int} (hround : (s.params.tapeCap : Int) ∣ d) :
    s.moveDp d = s := by
  have hback : (s.dp.toNat + d) % s.params.tapeCap = (s.dp.toNat : Int) := by
    obtain ⟨k, rfl⟩ := hround
    rw [Int.add_mul_emod_self_left]
    exact Int.emod_eq_of_lt (by omega) (Int.ofNat_lt.2 hd)
  rw [State.moveDp, hback, BitVec.ofInt_natCast, BitVec.ofNat_toNat, BitVec.setWidth_eq]
  rfl

/-! ## RIGHT and LEFT (R100 to R103) -/

/-- How far an instruction of the family moves `dp`. -/
def dpDelta : Instr → Int
  | .right => 1
  | .left => -1
  | _ => 0

theorem ringSucc_eq_moveDp (hwf : s.params.wf = true) : ringSucc s.params.tapeCap s.dp = (s.moveDp 1).dp := by
  obtain ⟨-, -, hpos, hcap⟩ := Params.wf_iff.1 hwf
  refine BitVec.eq_of_toNat_eq (Int.ofNat_inj.1 ?_)
  rw [State.moveDp_dp hwf, ringSucc_toNat hpos hcap]
  push_cast
  rfl

/-- Below address 0 the counter's `+ TAPE_CAP - 1` and the mathematical `- 1` have one remainder (R103). -/
theorem ringPred_eq_moveDp (hwf : s.params.wf = true) : ringPred s.params.tapeCap s.dp = (s.moveDp (-1)).dp := by
  obtain ⟨-, -, hpos, hcap⟩ := Params.wf_iff.1 hwf
  have hcast : ((s.dp.toNat + s.params.tapeCap - 1 : Nat) : Int) = s.dp.toNat + -1 + s.params.tapeCap := by omega
  refine BitVec.eq_of_toNat_eq (Int.ofNat_inj.1 ?_)
  rw [State.moveDp_dp hwf, ringPred_toNat hpos hcap, Int.natCast_emod, hcast, Int.add_emod_right]

theorem exec_pointerMove (hi : i = .right ∨ i = .left) (hwf : s.params.wf = true) :
    exec i s = .next (s.moveDp (dpDelta i)) := by
  rcases hi with rfl | rfl
  · rw [ExecCase.right.eq, ringSucc_eq_moveDp hwf]
    rfl
  · rw [ExecCase.left.eq, ringPred_eq_moveDp hwf]
    rfl

/-- One RIGHT or LEFT: it completes, changes `dp` alone, and moves it by its constant. -/
theorem exec_pointerMove_changes_dp_only (hi : i = .right ∨ i = .left) (hwf : s.params.wf = true) :
    ∃ t, exec i s = .next t ∧ t = { s with dp := t.dp }
      ∧ (t.dp.toNat : Int) = (s.dp.toNat + dpDelta i) % s.params.tapeCap :=
  ⟨_, exec_pointerMove hi hwf, rfl, State.moveDp_dp hwf _⟩

/-- A sequence of RIGHT and LEFT moves `dp` by the sum of its constants. -/
theorem execAll_pointerMoves {is : List Instr} (his : ∀ i ∈ is, i = .right ∨ i = .left) (hwf : s.params.wf = true)
    (hd : s.dpInRange) :
    execAll is s = .next (s.moveDp (is.map dpDelta).sum) := by
  induction is generalizing s with
  | nil => simp [execAll, State.moveDp_of_dvd hd]
  | cons i rest ih =>
    obtain ⟨hi, hrest⟩ := List.forall_mem_cons.1 his
    have hstep := exec_pointerMove hi hwf
    have htail := ih (s := s.moveDp (dpDelta i)) hrest hwf (State.moveDp_dpInRange hwf _)
    rw [State.moveDp_moveDp hwf] at htail
    simp only [execAll, hstep, htail, List.map_cons, List.sum_cons]

/-- A sequence of RIGHT and LEFT that makes whole rounds restores the whole state. -/
theorem execAll_pointerMoves_restores {is : List Instr} (his : ∀ i ∈ is, i = .right ∨ i = .left)
    (hround : (s.params.tapeCap : Int) ∣ (is.map dpDelta).sum) (hwf : s.params.wf = true) (hd : s.dpInRange) :
    execAll is s = .next s := by
  rw [execAll_pointerMoves his hwf hd, State.moveDp_of_dvd hd hround]

/-- `TAPE_CAP` moves to one side make whole rounds. -/
theorem execAll_replicate_pointerMove (hi : i = .right ∨ i = .left) (hwf : s.params.wf = true) (hd : s.dpInRange) :
    execAll (List.replicate s.params.tapeCap i) s = .next s := by
  have hmoves : ∀ j ∈ List.replicate s.params.tapeCap i, j = .right ∨ j = .left :=
    fun _ hj => List.eq_of_mem_replicate hj ▸ hi
  refine execAll_pointerMoves_restores hmoves ?_ hwf hd
  rw [List.map_replicate, List.sum_replicate, nsmul_eq_mul]
  exact dvd_mul_right _ _

/-- Settles O18: RIGHT is the move by 1. -/
theorem rightMovesDpRoundTheRing : Obligations.RightMovesDpRoundTheRing :=
  ⟨decode_encodeByte (i := .right) rfl, fun _ hwf => exec_pointerMove_changes_dp_only (.inl rfl) hwf⟩

/-- Settles O19: LEFT is the move by `-1`, which cancels against RIGHT's. -/
theorem leftMovesDpRoundTheRing : Obligations.LeftMovesDpRoundTheRing :=
  ⟨decode_encodeByte (i := .left) rfl, fun _ hwf =>
    ⟨exec_pointerMove_changes_dp_only (.inr rfl) hwf,
      execAll_pointerMoves_restores (by simp) (by simp [dpDelta]) hwf⟩⟩

/-- Settles O20: RIGHT and LEFT cancel, and `TAPE_CAP` equal moves make whole rounds. -/
theorem pointerMovesAreCyclic : Obligations.PointerMovesAreCyclic := fun _ hwf hd =>
  ⟨execAll_pointerMoves_restores (by simp) (by simp [dpDelta]) hwf hd,
    execAll_replicate_pointerMove (.inl rfl) hwf hd, execAll_replicate_pointerMove (.inr rfl) hwf hd⟩

end Sys2Proof.Machine
end

section
/-! SUPPORT. JF and JB (spec/43_jumps.md): a bracket whose condition selects the jump reads the entry at its own
position (R110 to R113), the entries of a loaded program lead behind the partners (R114, R116), and no run from
reset misses one (R113, R134). -/

namespace Sys2Proof.Machine
variable {s t : State} {b : Byte} {target : Word} {m j k : Nat}

/-! ## The execute parts (R110, R111) -/

/-- Settles O21: JF's three cases, with the jump key written out. -/
theorem jfJumpsOnZeroCell : Obligations.JfJumpsOnZeroCell :=
  ⟨decode_encodeByte (i := .jf) rfl, fun _ hd =>
    ⟨fun hc => (ExecCase.jfFall hd hc).eq, fun target hc ht => (ExecCase.jfJump hd hc target ht).eq,
      fun hc ht => (ExecCase.jfMiss hd hc ht).eq⟩⟩

/-- Settles O22: JB's three cases, with the jump key written out. -/
theorem jbJumpsOnNonZeroCell : Obligations.JbJumpsOnNonZeroCell :=
  ⟨decode_encodeByte (i := .jb) rfl, fun _ hd =>
    ⟨fun hc => (ExecCase.jbFall hd hc).eq, fun target hc ht => (ExecCase.jbJump hd hc target ht).eq,
      fun hc ht => (ExecCase.jbMiss hd hc ht).eq⟩⟩

/-! ## A step that fetches a bracket (R112) -/

/-- A step that fetches answers what the execute part can do behind the advance of `pc`. -/
theorem step_of_execCase (hf : s.fetches b) (h : ExecCase (advancePc s) (decode b) t) : step s = .next t :=
  (step_fetches hf).trans h.eq

/-- A bracket whose condition selects the jump goes to the target of the entry at its own position. -/
theorem step_jump (hf : s.fetches b) (hd : s.dpInRange)
    (hsel : decode b = .jf ∧ s.currentCell = 0#8 ∨ decode b = .jb ∧ s.currentCell ≠ 0#8)
    (ht : s.jtTarget s.pc.toNat = some target) : step s = .next (s.setPc target) := by
  have hkey : (advancePc s).jtTarget (advancePc s).jumpKey = some target := by
    rw [jumpKey_advancePc]
    exact ht
  refine step_of_execCase hf ?_
  rcases hsel with ⟨hb, hc⟩ | ⟨hb, hc⟩
  · rw [hb]
    exact .jfJump (s := advancePc s) hd hc target hkey
  · rw [hb]
    exact .jbJump (s := advancePc s) hd hc target hkey

/-- A bracket whose condition does not select the jump goes on to the next byte. -/
theorem step_fallThrough (hf : s.fetches b) (hd : s.dpInRange)
    (hsel : decode b = .jf ∧ s.currentCell ≠ 0#8 ∨ decode b = .jb ∧ s.currentCell = 0#8) :
    step s = .next (advancePc s) := by
  refine step_of_execCase hf ?_
  rcases hsel with ⟨hb, hc⟩ | ⟨hb, hc⟩
  · rw [hb]
    exact .jfFall (s := advancePc s) hd hc
  · rw [hb]
    exact .jbFall (s := advancePc s) hd hc

/-- Settles O23: the fetch's advance and the key's `- 1` cancel, so the key is where the bracket was fetched. -/
theorem jumpKeyIsTheBracketsPosition : Obligations.JumpKeyIsTheBracketsPosition :=
  ⟨fun _ _ hf hd hc ht => step_jump hf hd (.inl ⟨rfl, hc⟩) ht,
    fun _ _ hf hd hc ht => step_jump hf hd (.inr ⟨rfl, hc⟩) ht⟩

/-! ## The brackets of a loaded program (R114, R116) -/

/-- Settles O24: the loader has paired every bracket of the program, and the pair's entries are what the step reads. -/
theorem bracketsResumeBehindTheirPartners : Obligations.BracketsResumeBehindTheirPartners := by
  refine ⟨fun s h hf hc => ?_, fun s h hf hc => ?_, fun s h hf hc => ?_, fun s h hf hc => ?_⟩
  · have ⟨_, hlt, hbyte⟩ := hf
    obtain ⟨j, hpair⟩ := (h.inRun hf.phase_eq).exists_close hlt hbyte
    have ⟨_, _, _, hentry, _⟩ := hpair
    exact ⟨j, hpair, step_jump hf h.dpBound (.inl ⟨rfl, hc⟩) hentry⟩
  · have ⟨_, hlt, hbyte⟩ := hf
    obtain ⟨m, hpair⟩ := (h.inRun hf.phase_eq).exists_open hlt hbyte
    have ⟨_, _, _, _, hentry⟩ := hpair
    exact ⟨m, hpair, step_jump hf h.dpBound (.inr ⟨rfl, hc⟩) hentry⟩
  · exact step_fallThrough hf h.dpBound (.inl ⟨rfl, hc⟩)
  · exact step_fallThrough hf h.dpBound (.inr ⟨rfl, hc⟩)

/-- Every valid entry of a loaded program stands at a position of the program. -/
theorem State.loaded.entry_lt (h : s.loaded) (hk : s.jtTarget k = some target) : k < s.progLen.toNat := by
  obtain ⟨-, -, hscan⟩ := h
  obtain ⟨m, j, hj, ⟨hmj, -⟩, rfl | rfl⟩ := hscan.entryPaired k target hk
  · exact hmj.trans hj
  · exact hj

/-- A matched pair of a loaded program lies in it. -/
theorem State.loaded.paired_lt (h : s.loaded) (hpair : s.paired m j) : m < j ∧ j < s.progLen.toNat := by
  obtain ⟨hmj, -, -, -, hclose⟩ := hpair
  exact ⟨hmj, h.entry_lt hclose⟩

/-- The two entries of a pair are one past its `]` and one past its `[`, with no wrap (R114). -/
theorem State.loaded.paired_targets (h : s.loaded) (hpair : s.paired m j) :
    (∃ u, s.jtTarget m = some u ∧ u.toNat = j + 1) ∧ ∃ v, s.jtTarget j = some v ∧ v.toNat = m + 1 := by
  obtain ⟨hmj, hj⟩ := h.paired_lt hpair
  obtain ⟨-, -, -, hopen, hclose⟩ := hpair
  exact ⟨⟨_, hopen, ofNat16_toNat (by omega)⟩, _, hclose, ofNat16_toNat (by omega)⟩

/-- Every target of a loaded program is behind some bracket, so never position 0. -/
theorem State.loaded.target_pos (h : s.loaded) (hk : s.jtTarget k = some target) : 1 ≤ target.toNat := by
  have ⟨_, _, hscan⟩ := h
  obtain ⟨m, j, -, hpair, hkey⟩ := hscan.entryPaired k target hk
  obtain ⟨⟨u, hu, hval⟩, v, hv, hval'⟩ := h.paired_targets hpair
  rcases hkey with rfl | rfl
  · obtain rfl : target = u := Option.some.inj (hk.symm.trans hu)
    omega
  · obtain rfl : target = v := Option.some.inj (hk.symm.trans hv)
    omega

/-- Settles O48: a pair lies in the program, its targets are its positions' successors, and every entry is a pair's. -/
theorem jumpTargetsStayInTheProgram : Obligations.JumpTargetsStayInTheProgram := by
  intro s h hp
  have hl := h.inRun hp
  refine ⟨fun m j hpair => ?_, fun k target hk => ⟨hl.target_pos hk, hl.target_le hk⟩⟩
  obtain ⟨hmj, hj⟩ := hl.paired_lt hpair
  obtain ⟨⟨u, hu, hval⟩, v, hv, hval'⟩ := hl.paired_targets hpair
  exact ⟨hj, ⟨u, hu, hval, by omega, by omega⟩, v, hv, hval', by omega, by omega⟩

/-! ## Runs from reset (R113, R134, R147) -/

/-- From a state of the invariant every run answers a state of the invariant. -/
theorem State.Inv.runEvents_safe (h : s.Inv) (evs : List Event) : ∃ t, runEvents evs s = .next t ∧ t.Inv := by
  induction evs generalizing s with
  | nil => exact ⟨s, rfl, h⟩
  | cons e rest ih =>
    cases e with
    | host m => exact ih (everyHostMoveKeepsTheInvariant s m h)
    | tick =>
      obtain ⟨u, hu⟩ := stepNeverStopsUnderTheInvariant s h
      obtain ⟨t, hrun, ht⟩ := ih (everyStepKeepsTheInvariant s u h hu)
      exact ⟨t, by simp only [runEvents, hu, hrun], ht⟩

/-- Settles O53: the run starts at reset, where the invariant holds, and the invariant excludes JT_MISS. -/
theorem everyRunFromResetIsSafe : Obligations.EveryRunFromResetIsSafe := by
  intro evs
  obtain ⟨hreset, -⟩ := invariantHoldsAtReset
  obtain ⟨t, hrun, ht⟩ := hreset.runEvents_safe evs
  exact ⟨t, hrun, ht, ht.noJtMiss⟩

end Sys2Proof.Machine
end

section
/-! SUPPORT. WRITE and READ (spec/44_io.md): each is its port's transfer, so what it does is that transfer's case
(R120 to R122); where READ stores a byte, it changes the current cell alone. -/

namespace Sys2Proof.Machine
variable {s u : State}

/-! ## WRITE (R120) -/

/-- Settles O26: WRITE is the transfer of the current cell, which the host accepts or leaves to a hold. -/
theorem writeEmitsTheCurrentCell : Obligations.WriteEmitsTheCurrentCell :=
  ⟨decode_encodeByte (i := .write) rfl, fun _ hd =>
    ⟨fun hready => (ExecCase.write hd _ (.accepted hready)).eq,
      fun hready => (ExecCase.write hd _ (.held hready)).eq⟩⟩

/-! ## READ (R121, R122) -/

theorem exec_read (h : InputCase s u) : exec .read s = .next u := (ExecCase.read u h).eq

/-- A READ that stores `v` behind the update `u` of the ports: the tape changes in the current cell alone. -/
theorem exec_read_stores_in_currentCell_only {v : Byte} (h : InputCase s (u.setCurrentCell v))
    (hwf : Memory.wf u.tape = true) :
    ∃ t, exec .read s = .next t ∧ t = { u with tape := t.tape } ∧ t.currentCell = v
      ∧ ∀ a, a ≠ s.dp.toNat → t.cell a = s.cell a :=
  ⟨_, exec_read h, rfl, State.setCurrentCell_currentCell hwf v, fun _ ha => h.cell_other ha⟩

/-- Settles O27: one case of READ's transfer for a byte, for no event, and for each `P_EOF` at the end of input. -/
theorem readTakesOneInputEvent : Obligations.ReadTakesOneInputEvent := by
  refine ⟨decode_encodeByte (i := .read) rfl, fun s hwf hd => ⟨fun b rest hin => ?_,
    fun hin he => exec_read (.held hin he), fun hin he =>
      ⟨fun hp => exec_read (.unchanged hin he hp), fun hp => ?_, fun hp => ?_,
        fun hp => exec_read (.fault hin he hp)⟩⟩⟩
  · exact exec_read_stores_in_currentCell_only (u := (s.setInPort rest).setHold .free) (.byte b rest hin hd) hwf
  · exact exec_read_stores_in_currentCell_only (u := s.setHold .free) (.zero hin he hp hd) hwf
  · exact exec_read_stores_in_currentCell_only (u := s.setHold .free) (.allOnes hin he hp hd) hwf

end Sys2Proof.Machine
end

section
/-! SUPPORT. Faults (spec/60_exceptions.md): what a fault leaves as it was in each phase (R138), what a load port that
gives `LErr` leads to (R131, R137), and the scan that finds the bracket faults, turn by turn (R132, R133, R155). -/

namespace Sys2Proof.Machine
variable {s t : State} {i : Instr} {b : Byte} {n : Nat}

/-! ## Precise faults (R138) -/

theorem InputCase.faulted (h : InputCase s t) (hp : s.phase ≠ .faulted) (ht : t.phase = .faulted) :
    t = (s.setHold .free).setStatus .faulted .inputEnd := by
  cases h with
  | fault => rfl
  | byte | held | unchanged | zero | allOnes => exact absurd ht hp

/-- An execute part that faults sets `STATUS` alone: a bracket without an entry, or a READ at the end of input. -/
theorem ExecCase.faulted (h : ExecCase s i t) (hh : s.hold = .free) (hp : s.phase ≠ .faulted)
    (ht : t.phase = .faulted) :
    t = s.setStatus .faulted t.cause ∧ (t.cause = .jtMiss ∨ t.cause = .inputEnd) := by
  cases h with
  | jfMiss | jbMiss => exact ⟨rfl, .inl rfl⟩
  | write _ t h => exact absurd (h.phase_eq.symm.trans ht) hp
  | read t h =>
    obtain rfl := h.faulted hp ht
    rw [State.setHold_self hh]
    exact ⟨rfl, .inr rfl⟩
  | _ => exact absurd ht hp

/-- A step of the load phase that faults sets `STATUS`, and has taken at most an event of the load port. -/
theorem StepCase.load_faulted (h : StepCase s t) (hp : s.phase = .load) (ht : t.phase = .faulted) :
    t = { s with loadPort := t.loadPort, phase := .faulted, cause := t.cause } ∧ t.cause ≠ .none := by
  have hload : s.phase ≠ .faulted := by simp [hp]
  cases h with
  | copyError | scanUnbalancedClose | scanUnbalancedOpen => exact ⟨rfl, nofun⟩
  | exec b hf => exact absurd (hp.symm.trans hf.phase_eq) nofun
  | input _ hrun | output _ hrun => exact absurd (hp.symm.trans hrun) nofun
  | reset | release | scanDone | halt => contradiction
  | _ => exact absurd ht hload

theorem State.engineFresh.cell (h : s.engineFresh) (a : Nat) : s.cell a = 0#8 := by
  obtain ⟨-, -, htape⟩ := h
  rw [State.cell, htape]
  rfl

/-- Settles O39: what faults in each phase, and that FAULTED steps to itself. -/
theorem faultsArePreciseAndFinal : Obligations.FaultsArePreciseAndFinal := by
  refine ⟨fun s t b hf hstep ht => ?_, fun s t hr hp hh hstep ht => ?_, fun s t h hp hstep ht => ?_,
    fun t hr hp => runSteps_ended hr (.inr hp)⟩
  · have hrun : (advancePc s).phase ≠ .faulted := fun h => absurd (hf.phase_eq.symm.trans h) nofun
    have ⟨⟨_, _, hfree⟩, _⟩ := hf
    rw [step_fetches hf] at hstep
    exact (exec_next hstep).faulted hfree hrun ht
  · rw [step_heldInput hr hp hh] at hstep
    exact (inputTransfer_next hstep).faulted (by simp [hp]) ht
  · obtain ⟨heq, hcause⟩ := (step_next hstep).load_faulted hp ht
    obtain ⟨hfresh, -⟩ := h.inLoad hp
    have hfresh' : t.engineFresh := by
      rw [heq]
      exact hfresh
    have ⟨hpc, hdp, _⟩ := hfresh'
    exact ⟨heq, hcause, hpc, hdp, hfresh'.cell⟩

/-! ## A load port that gives `LErr` (R131, R137) -/

theorem step_copyError {rest : List LoadEvent} (hr : s.rst = false) (hp : s.phase = .load)
    (hl : s.loader = .copy n) (hn : n < s.params.progCap) (hq : s.loadPort = .error :: rest) :
    step s = .next ((s.setLoadPort rest).setStatus .faulted .loadIoError) := by
  simp [step_load hr hp, loadStep, hl, copyStep, hn, hq]

/-- From reset, bytes that fit and then `LErr` leave the bytes in program memory and raise LOAD_IO_ERROR, without a scan
of them. -/
theorem runSteps_loadError {bs : List Byte} {rest : List LoadEvent} (hr : s.rst = false) (hp : s.phase = .reset)
    (hl : s.loader = .copy 0) (hq : s.loadPort = bs.map LoadEvent.byte ++ .error :: rest)
    (hcap : bs.length < s.params.progCap) :
    runSteps (1 + (bs.length + 1)) s =
      .next ((((s.setLoadPort rest).setProg (storeFrom 0 bs s.prog)).setLoader (.copy bs.length)).setStatus
        .faulted .loadIoError) := by
  have hrelease : runSteps 1 s = .next (s.setStatus .load .none) := runSteps_succ (step_release hr hp) 0
  have hcopy := runSteps_copyBytes (s := s.setStatus .load .none) hr rfl hl hq (Nat.zero_add _) hcap.le
  have herror := step_copyError
    (s := (((s.setStatus .load .none).setLoadPort (.error :: rest)).setProg (storeFrom 0 bs s.prog)).setLoader
      (.copy bs.length)) hr rfl rfl hcap rfl
  exact runSteps_add hrelease _ (runSteps_add hcopy 1 (runSteps_succ herror 0))

/-- Settles O40: the copy ends in the fault, before any byte is scanned. -/
theorem loadErrorComesFirst : Obligations.LoadErrorComesFirst := fun _ _ _ _ hcap =>
  ⟨_, _, runSteps_loadError rfl rfl rfl rfl hcap, rfl, rfl, rfl, rfl, rfl, fun _ => rfl, rfl⟩

/-! ## The scan, turn by turn (R132, R133, R155 to R157) -/

theorem step_scanByte (hr : s.rst = false) (hp : s.phase = .load) (hl : s.loader = .scan n)
    (hn : n < s.progLen.toNat) (hb : s.progByte n = some b) : step s = .next (scanByte n b s) := by
  simp only [step_load hr hp, loadStep, hl, scanStep, if_pos hn, hb]

theorem step_finishScan (hr : s.rst = false) (hp : s.phase = .load) (hl : s.loader = .scan n)
    (hn : s.progLen.toNat ≤ n) : step s = .next (finishScan s) := by
  simp only [step_load hr hp, loadStep, hl, scanStep, if_neg hn.not_gt]

/-- Each turn that raises no fault is what the scan of its byte answers. -/
theorem ScanTurn.eq (h : ScanTurn s n b t) : scanByte n b s = t := by
  cases h with
  | opens => rfl
  | closes m rest hk => simp only [scanByte, jbByte_ne_jfByte, if_false, if_true, hk]
  | other b hf hj => rw [scanByte, if_neg hf, if_neg hj]

theorem scanByte_close_of_empty (hk : s.stk = []) :
    scanByte n jbByte s = s.setStatus .faulted .unbalancedClose := by
  simp [scanByte, hk]

theorem finishScan_of_open (hk : s.stk ≠ []) : finishScan s = s.setStatus .faulted .unbalancedOpen := by
  obtain ⟨m, rest, hk⟩ := List.exists_cons_of_ne_nil hk
  simp [finishScan, hk]

/-- Recording a pair writes its two entries and no other (R156); the `[` is below the `]`, so they are two. -/
theorem jtTarget_recordPair {m : Word} (hm : m.toNat < n) :
    (s.setJt (recordPair m n s.jt)).jtTarget m.toNat = some (BitVec.ofNat 16 (n + 1))
      ∧ (s.setJt (recordPair m n s.jt)).jtTarget n = some (m + 1#16)
      ∧ ∀ k, k ≠ m.toNat → k ≠ n → (s.setJt (recordPair m n s.jt)).jtTarget k = s.jtTarget k := by
  simp only [State.setJt_jtTarget, lookup_recordPair, if_neg hm.ne, if_true, true_and]
  intro k hkm hkn
  rw [if_neg hkn, if_neg hkm]
  rfl

/-- Settles O42: one turn of the scan for each kind of byte, and the end behind the last one. -/
theorem scanResolvesTheJumps : Obligations.ScanResolvesTheJumps := by
  intro s i h hr hp hl
  refine ⟨fun hi => ⟨fun hb => ?_, fun m rest hb hk => ?_, fun hb hk => ?_, fun b hb hf hj => ?_⟩,
    fun hi hk => ?_⟩
  · rw [step_scanByte hr hp hl hi hb, ScanTurn.opens.eq]
    rfl
  · obtain ⟨-, -, hscan⟩ := h.scanning hp hl
    obtain ⟨hm, -⟩ := hscan.openOnStack m (by simp [hk])
    rw [step_scanByte hr hp hl hi hb, (ScanTurn.closes m rest hk).eq]
    exact ⟨_, rfl, rfl, jtTarget_recordPair hm⟩
  · rw [step_scanByte hr hp hl hi hb, scanByte_close_of_empty hk]
    rfl
  · rw [step_scanByte hr hp hl hi hb, (ScanTurn.other b hf hj).eq]
    rfl
  · rw [step_finishScan hr hp hl hi, finishScan_of_open hk]
    rfl

end Sys2Proof.Machine
end

section
/-! SUPPORT. Reset and the load phase (spec/70_reset_and_hazards.md): what `rst` leaves (R150), the copy turn by turn
(R152) and cut at `PROG_CAP` (R153), and the end of the scan that enters the run phase (R158). -/

namespace Sys2Proof.Machine
variable {s t : State} {n i : Nat}

/-! ## Reset (R150) -/

/-- Settles O6: while asserted and when asserted, `rst` leaves what `resetEntry` makes of the state. -/
theorem resetAbandonsTheRun : Obligations.ResetAbandonsTheRun := by
  refine ⟨fun s hr => ⟨resetEntry s, step_reset hr, resetEntry_hasResetValues s, rfl, rfl, hr, rfl, rfl, Nat.zero_le _⟩,
    fun s t ht => ?_, fun s hr hp => step_release hr hp⟩
  subst ht
  exact ⟨resetEntry_hasResetValues { s with rst := true }, rfl, rfl, rfl, rfl, rfl, rfl, Nat.zero_le _⟩

/-! ## The copy, turn by turn (R131, R152) -/

/-- Settles O41: one turn of the copy at `PROG_CAP` bytes, for no event, and for each event of the load port. -/
theorem loaderCopiesTheProgram : Obligations.LoaderCopiesTheProgram := by
  intro s n hr hp hl
  refine ⟨fun hfull => step_copyFull hr hp hl hfull, fun hn => ⟨fun hq => step_copyHeld hr hp hl hn hq,
    fun b rest hq => ⟨_, step_copyByte hr hp hl hn hq, rfl, ?_, fun a ha => ?_⟩,
    fun rest hq => step_copyEnded hr hp hl hn hq, fun rest hq => step_copyError hr hp hl hn hq⟩⟩
  · exact Sparse.lookup_put_same s.prog n b
  · exact Sparse.lookup_put_other s.prog b ha

/-! ## The cut at `PROG_CAP` (R153) -/

/-- Once the scan has begun, no run without reset takes an event of the load port (R54). -/
theorem runSteps_scan_keeps_loadPort (hr : s.rst = false) (hl : s.loader = .scan i)
    (hrun : runSteps n s = .next t) : t.loadPort = s.loadPort := by
  induction n generalizing s i with
  | zero => cases hrun; rfl
  | succ n ih =>
    rw [runSteps] at hrun
    cases hstep : step s with
    | fault | refused => rw [hstep] at hrun; contradiction
    | next u =>
      rw [hstep] at hrun
      obtain ⟨-, hrst, -⟩ := stepLeavesParametersRstInputEndAndReadiness s u hstep
      obtain ⟨j, hj⟩ := (step_next hstep).scan_goes_on hr hl
      have hport : u.loadPort = s.loadPort := by
        by_contra hne
        obtain ⟨-, -, m, e, hcopy, -⟩ := (step_next hstep).loadPort_taken hne
        exact absurd (hl.symm.trans hcopy) nofun
      exact (ih (hrst.trans hr) hj hrun).trans hport

/-- The depth count that reaches the end of a text does not fail in any beginning of it. -/
theorem bracketDepth_take_ne_none {bs : List Byte} {d : Nat} (h : bracketDepth bs d ≠ none) (n : Nat) :
    bracketDepth (bs.take n) d ≠ none := by
  intro hnone
  rw [← List.take_append_drop n bs, bracketDepth_append, hnone] at h
  exact h rfl

/-- Settles O44: the scan begins behind the copy of the text kept, and no later step takes an event. -/
theorem longSourceIsTruncated : Obligations.LongSourceIsTruncated := by
  refine ⟨fun p bs hp hcap => ?_, fun bs n hwf => ?_⟩
  · have htext := scanStart_scansText hp bs
    have hkept : (bs.take p.progCap).length = p.progCap := List.length_take_of_le hcap
    refine ⟨_, _, runSteps_bootState p bs, rfl, rfl, htext.length.trans hkept, fun a ha => ?_, if_neg hcap.not_gt,
      fun n u hrun => runSteps_scan_keeps_loadPort rfl rfl hrun⟩
    rw [htext.bytes, List.getElem?_take_of_lt ha]
  · exact bracketDepth_take_ne_none (by simp [Program.wf_iff.1 hwf]) n

/-! ## The entry into the run phase (R27, R158) -/

/-- Every valid entry of a loaded program belongs to a matched pair. -/
theorem State.loaded.entry_paired (h : s.loaded) {k : Nat} {target : Word} (hk : s.jtTarget k = some target) :
    ∃ j, s.paired k j ∨ s.paired j k := by
  obtain ⟨-, -, hscan⟩ := h
  obtain ⟨m, j, -, hpair, rfl | rfl⟩ := hscan.entryPaired k target hk
  · exact ⟨j, .inl hpair⟩
  · exact ⟨m, .inr hpair⟩

/-- Under the invariant the end of the scan sets `PHASE` alone, because `CAUSE` is NONE in LOAD. -/
theorem step_scanDone (h : s.Inv) (hr : s.rst = false) (hp : s.phase = .load) (hl : s.loader = .scan i)
    (hi : s.progLen.toNat ≤ i) (hk : s.stk = []) : step s = .next { s with phase := .run } := by
  have hcause : s.cause = .none := h.cause_eq_none (by simp [hp])
  rw [step_finishScan hr hp hl hi, finishScan, hk]
  simp only [State.setStatus, ← hcause, ← hk]

/-- Settles O43: the step keeps the invariant, which has the jump table complete in RUN. -/
theorem scanEndEntersTheRunPhase : Obligations.ScanEndEntersTheRunPhase := by
  intro s i h hr hp hl hi hk
  have hstep := step_scanDone h hr hp hl hi hk
  have hloaded : State.loaded { s with phase := .run } :=
    (everyStepKeepsTheInvariant s _ h hstep).inRun rfl
  obtain ⟨hfresh, -⟩ := h.inLoad hp
  have ⟨hpc, hdp, _⟩ := hfresh
  exact ⟨_, hstep, rfl, ⟨hr, rfl, h.hold_eq_free (by simp [hp])⟩, hpc, hdp, hfresh.cell, hk,
    fun _ => hloaded.exists_close, fun _ => hloaded.exists_open, fun _ _ => hloaded.entry_paired⟩

end Sys2Proof.Machine
end
